-- ==== Sys2Proof/Word.lean ====
section
/-! DEFINITION. The word types of the block: a message byte, the 16-bit signal, a binary64 pattern. -/

namespace Sys2Proof

/-- One byte of the message (20_memory.md R30: a byte is 8 bits). -/
abbrev Byte := BitVec 8

/-- The 16-bit signal (10_state.md R15: the nets `raw_u` and `raw` have width 16). -/
abbrev Word16 := BitVec 16

/-- A floating-point value as its IEEE 754 binary64 pattern (30_encoding.md R53). -/
abbrev F64 := BitVec 64

end Sys2Proof
end

