-- ==== Sys2Proof/Config.lean ====
section
/-! DEFINITION. The parameters of 00_scope.md R5, the hard-wired constants of 30_encoding.md R55, and the free values: results
the spec states for no operand of that kind. -/

namespace Sys2Proof

/-- `MSG_MAX`, the bytes the `msg_data` port carries: 8, the default of 00_scope.md R5.
DESIGN CHOICE (safe): State is built at the default; the datapath takes any width (log 13). -/
abbrev Config.msgMax : Nat := 8

/-- `LEN_W`, the width of `msg_len`: `ceil(log2(MSG_MAX + 1))`, 4 when `MSG_MAX` is 8 (00_scope.md R5). -/
abbrev Config.lenW : Nat := 4

/-- The width of `msg_data`: `8 × MSG_MAX` (10_state.md R13). -/
abbrev Config.dataW : Nat := 64

/-- The width of the lanes from index 3 on: `8 × (MSG_MAX − 3)` (30_encoding.md R50, field `IGN3`). -/
abbrev Config.restW : Nat := 40

/-- `SIG_OFFSET`, the zero-based index of the first signal byte (00_scope.md R5). -/
abbrev Config.sigOffset : Nat := 1

/-- `SIG_BYTES`, the number of signal bytes (00_scope.md R5). -/
abbrev Config.sigBytes : Nat := 2

/-- `MIN_LEN`, the least message length that holds the signal: `SIG_OFFSET + SIG_BYTES` (00_scope.md R5). -/
abbrev Config.minLen : Nat := 3

/-- `SIG_BITS`, the width of the raw integer (00_scope.md R5). -/
abbrev Config.sigBits : Nat := 16

/-- `SCALE_DIV`, the divisor 256.0 (30_encoding.md R55). -/
def Config.scaleDiv : F64 := 0x4070000000000000#64

/-- `KPH_MAX`, the ceiling 250.996 as the nearest binary64 value (42_range.md R91). -/
def Config.kphMax : F64 := 0x406F5FDF3B645A1D#64

/-- `MPH_PER_KPH`, the factor 0.6213712 as the nearest binary64 value (43_convert.md R101). -/
def Config.mphPerKph : F64 := 0x3FE3E245DAD5A40C#64

/-- The document's decimal literal for the ceiling (30_encoding.md R55). -/
def Config.kphMaxLiteral : ℚ := 250996 / 1000

/-- The document's decimal literal for the factor (30_encoding.md R55). -/
def Config.mphPerKphLiteral : ℚ := 6213712 / 10000000

/-- `SENTINEL`, the raw pattern that means "not available" (00_scope.md R5, 42_range.md R94). -/
def Config.sentinel : Word16 := 0xFFFF#16

/-- `ABSENT_BITS`, the quiet NaN driven on `mph` when the result is absent (30_encoding.md R54). -/
def Config.absentBits : F64 := 0x7FF8000000000000#64

/-- `T_PD`, the propagation delay: an OPEN parameter that no rule of the spec reads and nothing in the model uses
(70_reset_and_hazards.md R143, R145; log 15). -/
opaque Config.tPd : Nat

/-- FREE VALUE: what the comparator answers when an operand is a NaN. 00_scope.md §5 gives `f64_gt` for non-NaN patterns
only, and no evaluation feeds it a NaN (41_scale.md R82). DESIGN CHOICE (safe): nothing constrains it (log 9). -/
opaque Config.unorderedGreater : F64 → F64 → Bool

/-- FREE VALUE: what the multiplier of KPH2MPH gives for an infinity or a NaN. 43_convert.md R100 gives the product through
`val`, which is defined for finite patterns only, and no evaluation feeds it such a pattern (41_scale.md R82).
DESIGN CHOICE (safe): nothing constrains it (log 10). -/
opaque Config.nonFiniteProduct : F64 → F64

/-- FREE VALUE: the sign bit of the zero that KPH2MPH gives for the operand −0. `rne64` of the rational 0 does not say which
zero, and no evaluation feeds it −0 (41_scale.md R82). DESIGN CHOICE (safe): nothing constrains it (log 11). -/
opaque Config.negZeroProductSign : Bool

end Sys2Proof
end

