-- ==== Sys2Proof/Machine/Float.lean ====
section
/-! DEFINITION. Binary64 patterns: fields, classes, exact value, comparison, rounding of an exact value, multiplication
(30_encoding.md R53, 00_scope.md §5). Integers only: no floating-point library stands behind them. -/

namespace Sys2Proof.Machine

/-- The sign, bit 63 (30_encoding.md R53). -/
def f64Sign (b : F64) : Bool := b.getLsbD 63

/-- The biased exponent field, bits `[62:52]` (30_encoding.md R53). -/
def f64Exp (b : F64) : Nat := (b.extractLsb' 52 11).toNat

/-- The fraction field, bits `[51:0]` (30_encoding.md R53). -/
def f64Frac (b : F64) : Nat := (b.extractLsb' 0 52).toNat

/-- The pattern `s ∥ e[10:0] ∥ f[51:0]` (30_encoding.md R53). -/
def f64Pack (s : Bool) (e f : Nat) : F64 := BitVec.ofBool s ++ BitVec.ofNat 11 e ++ BitVec.ofNat 52 f

/-- The classes of patterns (30_encoding.md R53). -/
inductive F64Class where
  | zero
  | subnormal
  | normal
  | infinity
  | nan
deriving DecidableEq, Repr

/-- The class of a pattern (30_encoding.md R53). -/
def f64Class (b : F64) : F64Class :=
  if f64Exp b = 0 then (if f64Frac b = 0 then .zero else .subnormal)
  else if f64Exp b = 2047 then (if f64Frac b = 0 then .infinity else .nan)
  else .normal

/-- A NaN: exponent field 2047 and a fraction that is not 0 (30_encoding.md R53). -/
def f64IsNan (b : F64) : Bool := f64Exp b == 2047 && f64Frac b != 0

/-- A quiet NaN: `f[51] = 1` (30_encoding.md R53). -/
def f64IsQuietNan (b : F64) : Bool := f64IsNan b && b.getLsbD 51

/-- A finite pattern: neither an infinity nor a NaN (30_encoding.md R53). -/
def f64IsFinite (b : F64) : Bool := f64Exp b != 2047

/-- The integer significand: `2^52 + f` for a normal number (30_encoding.md R53). PRESUMED (unsafe, log 12): `f` for a zero or
a subnormal, as in IEEE 754; the spec names the subnormals and gives no formula, and none appears on a net or port. -/
def f64Significand (b : F64) : Nat := if f64Exp b = 0 then f64Frac b else 2 ^ 52 + f64Frac b

/-- The weight of the significand's last bit, as a power of two: `e − 1075` for a normal number (30_encoding.md R53).
PRESUMED (unsafe, log 12): −1074 for a zero or a subnormal, as in IEEE 754. -/
def f64Unit (b : F64) : Int := if f64Exp b = 0 then -1074 else (f64Exp b : Int) - 1075

/-- `val(b)`: the exact rational value of a finite pattern, `(−1)^s × (2^52 + f) × 2^(e − 1075)` for a normal number
(30_encoding.md R53, 00_scope.md §5). It says nothing of an infinity or a NaN. -/
def f64Val (b : F64) : ℚ :=
  (if f64Sign b then -1 else 1) * (f64Significand b : ℚ) * (2 : ℚ) ^ f64Unit b

/-- The place of a non-NaN pattern in the order of values: the 63 low bits as a number, negated under the sign, so that both
zeros are 0 and the infinities lie beyond every finite pattern. -/
def f64Key (b : F64) : Int :=
  if f64Sign b then -((b.extractLsb' 0 63).toNat : Int) else ((b.extractLsb' 0 63).toNat : Int)

/-- `f64_gt`: the IEEE 754 "greater than" of two non-NaN patterns (00_scope.md §5). With a NaN the spec gives no answer: a
free value (log 9). -/
def f64Gt (a b : F64) : Bool :=
  if f64IsNan a || f64IsNan b then Config.unorderedGreater a b else decide (f64Key b < f64Key a)

/-- The number of bits of `N`: the least `L` with `N < 2^L` (43_convert.md R102). -/
def bitLength (N : Nat) : Nat := if N = 0 then 0 else N.log2 + 1

/-- `N ÷ 2^sh` rounded to the nearest integer, ties to even (43_convert.md R102: `q`, `r`, and the test that adds 1). -/
def roundShift (N sh : Nat) : Nat :=
  let q := N >>> sh
  let r := N % 2 ^ sh
  if 0 < sh ∧ (2 ^ (sh - 1) < r ∨ (r = 2 ^ (sh - 1) ∧ q % 2 = 1)) then q + 1 else q

/-- `rne64` of the rational `(−1)^s × N × 2^k`, for `N` not 0: the nearest binary64 pattern, ties to the even fraction
(00_scope.md §5). The unit of the result is that of a 53-bit significand, but never below 2^−1074. In the range of
43_convert.md R102 this is the procedure given there. DEDUCED (safe, log 24): no value beyond the largest finite pattern is
ever rounded here, because the one product of the block has a factor below 1. -/
def rne64 (s : Bool) (N : Nat) (k : Int) : F64 :=
  let unit : Int := max (k + bitLength N - 53) (-1074)
  let q := if k ≤ unit then roundShift N (unit - k).toNat else N <<< (k - unit).toNat
  BitVec.ofBool s ++ BitVec.ofNat 63 ((unit + 1074).toNat * 2 ^ 52 + q)

/-- The correctly rounded product of two finite patterns, neither of them a zero: the exact rational product rounded once
(43_convert.md R100). -/
def f64MulFinite (a b : F64) : F64 :=
  rne64 (f64Sign a != f64Sign b) (f64Significand a * f64Significand b) (f64Unit a + f64Unit b)

end Sys2Proof.Machine
end

