-- ==== Sys2Proof/Syntax.lean ====
section
/-! DEFINITION. The operations: one constructor for each row of spec/opcode_table.json (30_encoding.md R59). -/

namespace Sys2Proof

/-- The rows of the opcode table. DECODE is the one operation (30_encoding.md R51); the seven others are the stages it is
made of, which no input selects and which cannot be invoked separately (R58, R59). -/
inductive Instr where
  /-- DECODE (44_decode.md R110), the operands being the fields of the MSG format (30_encoding.md R50): `LEN` is `msg_len`;
  `IGN0`, `SIG_LO` and `SIG_HI` are the lanes at index 0, 1 and 2; `rest` is every lane from index 3 on, of which the field
  `IGN3` is the part inside the message. All lanes are carried, those outside the message too (20_memory.md R32), because
  the nets are computed from lanes 1 and 2 as they are driven (40_extract.md R73). -/
  | decode (len : BitVec Config.lenW) (ign0 sigLo sigHi : Byte) (rest : BitVec Config.restW)
  /-- LENCHK, stage 1 (40_extract.md R70). -/
  | lenchk
  /-- EXTRACT, stage 2 (40_extract.md R71). -/
  | extract
  /-- LE16S, stage 3 (40_extract.md R72). -/
  | le16s
  /-- FX2F, stage 4 (41_scale.md R80). -/
  | fx2f
  /-- RANGE, stage 5 (42_range.md R95). -/
  | range
  /-- KPH2MPH, stage 6 (43_convert.md R100). -/
  | kph2mph
  /-- OUT, stage 7 (43_convert.md R104). -/
  | out
deriving DecidableEq, Repr

end Sys2Proof
end

