-- ==== Sys2Proof/WellFormed.lean ====
section
/-! DEFINITION. Which terms of the syntax can be presented to the block. -/

namespace Sys2Proof

/-- The place of a row among the stages, `none` for DECODE (the field `order` of spec/opcode_table.json, 30_encoding.md R59). -/
def Instr.order : Instr → Option Nat
  | .decode _ _ _ _ _ => none
  | .lenchk => some 1
  | .extract => some 2
  | .le16s => some 3
  | .fx2f => some 4
  | .range => some 5
  | .kph2mph => some 6
  | .out => some 7

/-- A term that can be presented: DECODE with any operands (30_encoding.md R51, R52: every value of the ports is legal). A
stage is never selected and cannot be invoked separately (R58, R59), so none of the seven stages is well formed. -/
def Instr.wellFormed (i : Instr) : Bool := i.order.isNone

/-- The seven stages in the table's `order` (30_encoding.md R59). -/
def stagesInOrder : List Instr :=
  [.lenchk, .extract, .le16s, .fx2f, .range, .kph2mph, .out]

end Sys2Proof
end

