-- ==== Sys2Proof/Decode.lean ====
section
/-! DEFINITION. The decoder (input ports to operation), the encoder, and how a message stands on the input ports. -/

namespace Sys2Proof

/-- The byte lane at index `i` of a data port: byte `i` is `msg_data[8i+7:8i]` (20_memory.md R31), with bit `k` of the byte
on `msg_data[8i+k]` (R34). -/
def lane {dw : Nat} (data : BitVec dw) (i : Nat) : Byte := data.extractLsb' (8 * i) 8

/-- The operation on the input ports. Every value of the ports selects DECODE (30_encoding.md R51: mask 0, match 0), so
nothing is rejected (R56); the fields are those of R50. -/
def decodeInputs (len : BitVec Config.lenW) (data : BitVec Config.dataW) : Instr :=
  .decode len (lane data 0) (lane data 1) (lane data 2) (data.extractLsb' 24 Config.restW)

/-- `msg_data` put together from its lanes, index 0 on the least significant bits (20_memory.md R31). -/
def joinLanes (ign0 sigLo sigHi : Byte) (rest : BitVec Config.restW) : BitVec Config.dataW :=
  rest ++ sigHi ++ sigLo ++ ign0

/-- The value of the input ports that presents an operation: LEN on `msg_len`, the lanes on `msg_data` (30_encoding.md R50).
A stage has no encoding, for nothing on the ports selects it (R51, R59). -/
def encode : Instr → Option (BitVec Config.lenW × BitVec Config.dataW)
  | .decode len ign0 sigLo sigHi rest => some (len, joinLanes ign0 sigLo sigHi rest)
  | .lenchk => none
  | .extract => none
  | .le16s => none
  | .fx2f => none
  | .range => none
  | .kph2mph => none
  | .out => none

/-- The fields of the MSG format as 30_encoding.md R50 lists them, for a message that has them. -/
structure MsgFields where
  /-- `IGN0`, byte 0, ignored. -/
  ign0 : Byte
  /-- `SIG_LO`, byte 1, signal bits 7 to 0. -/
  sigLo : Byte
  /-- `SIG_HI`, byte 2, signal bits 15 to 8. -/
  sigHi : Byte
  /-- `IGN3`, bytes 3 to `min(n, MSG_MAX) − 1`, ignored; may be empty. -/
  ign3 : List Byte
deriving DecidableEq, Repr

/-- The fields of the message on the ports; a message of fewer than 3 bytes has none (30_encoding.md R50). -/
def fieldsOf (len : BitVec Config.lenW) (data : BitVec Config.dataW) : Option MsgFields :=
  if len.toNat < Config.minLen then none
  else some {
    ign0 := lane data 0
    sigLo := lane data 1
    sigHi := lane data 2
    ign3 := (List.range (min len.toNat Config.msgMax - 3)).map fun k => lane data (3 + k) }

/-- The bytes of `L` from lane `i` on, as a number (20_memory.md R31). -/
def bytesToNat : List Byte → Nat
  | [] => 0
  | b :: L => b.toNat + 256 * bytesToNat L

/-- `msg_data` for a message: its first `MSG_MAX` bytes on the lanes, zeros on the lanes beyond it (30_encoding.md R57).
DESIGN CHOICE (safe): the lanes outside the message may carry anything (20_memory.md R32; log 22). -/
def presentedData (L : List Byte) : BitVec Config.dataW := BitVec.ofNat _ (bytesToNat (L.take Config.msgMax))

/-- `msg_len` for a message: its length, or the largest value of the port for a longer message (30_encoding.md R57 allows any
value of at least 3 there). DESIGN CHOICE (safe): which value (log 22). -/
def presentedLen (L : List Byte) : BitVec Config.lenW := BitVec.ofNat _ (min L.length (2 ^ Config.lenW - 1))

/-- The evaluation written `DECODE [b0 b1 b2 ...]` (30_encoding.md R58). -/
def decodeBytes (L : List Byte) : Instr := decodeInputs (presentedLen L) (presentedData L)

/-- `msg_data` for a word of the opcode table: the low `nbits` bits of `w`, byte `i` of it on lane `i`, every further bit 0. -/
def tableData (nbits w : Nat) : BitVec Config.dataW := BitVec.ofNat _ (w % 2 ^ nbits)

/-- `msg_len` for a word of the opcode table: a message of `MSG_MAX` bytes, the longest whose bytes all stand on the lanes.
DESIGN CHOICE (safe): the table's rows have no bits and so say no length (log 4). -/
def tableLen : BitVec Config.lenW := BitVec.ofNat _ Config.msgMax

/-- The operation the decoder reads from a word of the opcode table. Every row has mask 0 and match 0, and DECODE is the
only row a decoder acts on (30_encoding.md R59), so the answer is DECODE for every word (log 5). -/
def decodeTableWord (nbits w : Nat) : Option Instr := some (decodeInputs tableLen (tableData nbits w))

end Sys2Proof
end

