-- ==== Sys2Proof/Machine/State.lean ====
section
/-! DEFINITION. The state: the value on the ports. The nets are functions of it. -/

namespace Sys2Proof.Machine

/-- The named combinational nets, with the widths of the table of 10_state.md R15. -/
structure Nets where
  /-- `len_ok`: the message has at least 3 bytes (40_extract.md R70). -/
  lenOk : Bool
  /-- `b1`: the byte at index 1 (40_extract.md R71). -/
  b1 : Byte
  /-- `b2`: the byte at index 2 (40_extract.md R71). -/
  b2 : Byte
  /-- `raw_u`: `b2 ∥ b1` (40_extract.md R72). -/
  rawU : Word16
  /-- `raw`: 16 bits, signed; its integer is the two's-complement reading (40_extract.md R72; log 20). -/
  raw : Word16
  /-- `kph`: the speed in km/h (41_scale.md R80). -/
  kph : F64
  /-- `over`: `kph` exceeds `KPH_MAX` (42_range.md R90). -/
  isOver : Bool
  /-- `neg`: `raw` is negative (42_range.md R93). -/
  neg : Bool
  /-- `sentinel`: `raw_u` is `0xFFFF` (42_range.md R94). -/
  sentinel : Bool
  /-- `valid`: `len_ok ∧ ¬neg ∧ ¬over` (42_range.md R95). -/
  valid : Bool
  /-- `mph_full`: the product with `MPH_PER_KPH` (43_convert.md R100). -/
  mphFull : F64
deriving DecidableEq, Repr

/-- A value of the two input ports (10_state.md R13). -/
structure InputPorts where
  /-- `msg_len`: the unsigned count of bytes in the message. -/
  msgLen : BitVec Config.lenW
  /-- `msg_data`: the message bytes, byte `i` on bits `[8i+7:8i]`. -/
  msgData : BitVec Config.dataW
deriving DecidableEq, Repr

/-- A value of the two output ports (10_state.md R14). -/
structure OutputPorts where
  /-- `present`: 1 when a speed was produced, 0 for absence. -/
  present : Bool
  /-- `mph`: the speed in miles per hour, or `ABSENT_BITS`. -/
  mph : F64
deriving DecidableEq, Repr

/-- The state: the value on the four ports, and nothing else of the block (10_state.md R10). The nets of R15 are no fields: they are
computed from the ports (`State.nets`). `probe` is the MODEL's own field, not the spec's: it is `none` in every state the block can
be in, and holds nets only where a row of the table was performed on net values that the present inputs do not give. DESIGN CHOICE
(safe, log 1). -/
structure State where
  /-- The input port `msg_len` (10_state.md R13). -/
  msgLen : BitVec Config.lenW
  /-- The input port `msg_data` (10_state.md R13). -/
  msgData : BitVec Config.dataW
  /-- The output port `present` (10_state.md R14). -/
  present : Bool
  /-- The output port `mph` (10_state.md R14). -/
  mph : F64
  /-- The model's own: net values other than those of the present inputs; `none` when the nets are those of the inputs (log 1). -/
  probe : Option Nets
deriving DecidableEq, Repr

/-- The faults of the machine: none. The block never traps, faults, stalls, raises or signals, and the fault outcome of a
three-outcome model is empty (60_exceptions.md R120). -/
inductive Fault where
deriving DecidableEq, Repr

/-- The refusals of the machine. No step and no meaning raises one (60_exceptions.md R120, 44_decode.md R111). -/
inductive Refusal where
  /-- An operation without a meaning in this model: raised by nothing, for every row of the table has its meaning (safe). -/
  | notModelled (mnemonic : String)
deriving DecidableEq, Repr

/-- The machine before the host has presented anything. The block has no reset and its ports no reset value (10_state.md R19,
70_reset_and_hazards.md R140). DESIGN CHOICE (unsafe, log 2): the input ports are held at zero, the case R141 names; the
outputs are then what R141 says DECODE of those inputs gives (DEDUCED, log 3). -/
def State.reset : State where
  msgLen := 0#4
  msgData := 0#64
  present := false
  mph := 0x7FF8000000000000#64
  probe := none

/-- A named cause of an absent result (60_exceptions.md R121). The names exist for the model and its proofs: no cause is
recorded or observable, and no number belongs to any of them (R122). -/
inductive ErrorKind where
  /-- InputTooShort: fewer than 3 bytes. -/
  | inputTooShort
  /-- WrongInputType: not representable on the typed ports (40_extract.md R74). -/
  | wrongInputType
  /-- OutOfRange: above the ceiling; cannot occur (42_range.md R92). -/
  | outOfRange
  /-- Unavailable: the sentinel pattern. -/
  | unavailable
  /-- NegativeRaw: a negative raw value. -/
  | negativeRaw
deriving DecidableEq, Repr

end Sys2Proof.Machine
end

