-- ==== Sys2Proof/Machine/Operands.lean ====
section
/-! DEFINITION. Reading the operands: the message as memory, the length, the two signal bytes, the 16-bit signal. -/

namespace Sys2Proof.Machine

/-- The message as memory: (address, byte) cells, addresses strictly rising. An address without a cell is not part of the
message and reads as no value (20_memory.md R30). -/
abbrev Memory := List Host.Cell

/-- The form every memory has: addresses strictly rising. (No cell can repeat what an unlisted address reads as, which is no
value.) -/
abbrev Memory.wf (m : Memory) : Prop := m.Pairwise fun c d => c.1 < d.1

/-- The byte at an address, `none` where the memory lists no cell. -/
def Memory.read : Memory → Nat → Option Byte
  | [], _ => none
  | c :: m, a => if c.1 = a then some c.2 else Memory.read m a

/-- The message on the ports: byte `i` from lane `i`, for the indices below the length that a lane carries (20_memory.md R30,
R31, R32). DEDUCED (safe): for a length above `MSG_MAX` (30_encoding.md R52) the lanes carry `MSG_MAX` bytes, and the
indices beyond them read as no value (log 14). -/
def messageOf {lw dw : Nat} (len : BitVec lw) (data : BitVec dw) : Memory :=
  (List.range (min len.toNat (dw / 8))).map fun i => (i, lane data i)

/-- `MemRead(i, 1)`: the byte of the message at index `i`, defined only inside the message (00_scope.md §5). -/
def memRead (s : State) (i : Nat) : Option Byte := (messageOf s.msgLen s.msgData).read i

/-- `raw_u`: the two signal bytes joined little-endian, `b2 ∥ b1` (40_extract.md R72). -/
def joinLittleEndian (b1 b2 : Byte) : Word16 := b2 ++ b1

/-- `sint_16`: the two's-complement reading of 16 bits, `uint` when the top bit is 0 and `uint − 65536` when it is 1
(00_scope.md §5, 40_extract.md R72). -/
def sint16 (v : Word16) : Int := if v.getLsbD 15 then (v.toNat : Int) - 65536 else v.toNat

/-- `|raw|` as a natural number: at most 32768 (41_scale.md R81). -/
def rawMagnitude (raw : Word16) : Nat := (sint16 raw).natAbs

end Sys2Proof.Machine
end

