-- ==== Sys2Proof/Machine/Flags.lean ====
section
/-! DEFINITION. The one-bit nets and the named error conditions (10_state.md R15, 60_exceptions.md R121). -/

namespace Sys2Proof.Machine

/-- `len_ok <- (uint(msg_len) >= 3)` (40_extract.md R70). -/
def lenOkNet {lw : Nat} (len : BitVec lw) : Bool := decide (Config.minLen ≤ len.toNat)

/-- `over <- f64_gt(kph, KPH_MAX)` (42_range.md R90). -/
def overNet (kph : F64) : Bool := f64Gt kph Config.kphMax

/-- `neg <- raw_u[15]` (42_range.md R93). -/
def negNet (rawU : Word16) : Bool := rawU.getLsbD 15

/-- `sentinel <- (raw_u = 0xFFFF)` (42_range.md R94). -/
def sentinelNet (rawU : Word16) : Bool := rawU == Config.sentinel

/-- `valid <- len_ok ∧ ¬neg ∧ ¬over` (42_range.md R95). -/
def validNet (lenOk neg isOver : Bool) : Bool := lenOk && !neg && !isOver

/-- The cause of an error condition, in terms of the nets (the table of 60_exceptions.md R121). -/
def ErrorKind.holds : ErrorKind → Nets → Bool
  | .inputTooShort, n => !n.lenOk
  | .wrongInputType, _ => false
  | .outOfRange, n => n.lenOk && n.isOver
  | .unavailable, n => n.lenOk && n.sentinel
  | .negativeRaw, n => n.lenOk && n.neg

/-- The single named cause of an absent result, in the document's order: InputTooShort, Unavailable, NegativeRaw, OutOfRange
(60_exceptions.md R124). -/
def errorCause (n : Nets) : Option ErrorKind :=
  [ErrorKind.inputTooShort, .unavailable, .negativeRaw, .outOfRange].find? fun k => k.holds n

end Sys2Proof.Machine
end

