-- ==== Sys2Proof/Machine/Nets.lean ====
section
/-! DEFINITION. The nets as functions of the ports, each a function of its own (10_state.md R15), and the result they give. The
one-bit nets are in Flags, the bytes and the joined signal in Decode and Operands. -/

namespace Sys2Proof.Machine

/-- The net `kph`, at bit level (41_scale.md R81): a sign split, the position `p` of the leading one, a shift, and the
exponent `1023 + p − 8`, the `− 8` being the division by 256. Raw 0 gives +0. -/
def kphNet (raw : Word16) : F64 :=
  if raw = 0#16 then 0x0000000000000000#64
  else
    let m := rawMagnitude raw
    let p := bitLength m - 1
    f64Pack (raw.getLsbD 15) (1023 + p - 8) ((m - 2 ^ p) * 2 ^ (52 - p))

/-- The net `mph_full` (43_convert.md R100): the binary64 product of `kph` and `MPH_PER_KPH`, rounded once, to nearest, ties
to even. The operand +0 gives +0 (R102). Operands that no evaluation produces: −0 gives a zero whose sign is a free value
(log 11); an infinity or a NaN gives a free value (log 10). -/
def mphFullNet (kph : F64) : F64 :=
  match f64Class kph with
  | .zero => f64Pack (f64Sign kph && Config.negZeroProductSign) 0 0
  | .subnormal => f64MulFinite kph Config.mphPerKph
  | .normal => f64MulFinite kph Config.mphPerKph
  | .infinity => Config.nonFiniteProduct kph
  | .nan => Config.nonFiniteProduct kph

/-- The significand `C` of `MPH_PER_KPH` (43_convert.md R102). -/
def mphSignificand : Nat := 5596814209557516

/-- The integer procedure of 43_convert.md R102, line by line: `mph_full` from `raw` without floating-point arithmetic. It is
the spec's second description of the net `mph_full`; the stage itself is `mphFullNet`. -/
def mphFullProcedure (raw : Word16) : F64 :=
  if raw = 0#16 then 0x0000000000000000#64
  else
    let N := rawMagnitude raw * mphSignificand
    let L := bitLength N
    let q := roundShift N (L - 53)
    let E : Int := (L : Int) - 62
    if q = 2 ^ 53 then f64Pack (raw.getLsbD 15) (E + 1 + 1023).toNat (2 ^ 52 - 2 ^ 52)
    else f64Pack (raw.getLsbD 15) (E + 1023).toNat (q - 2 ^ 52)

/-- The nets of one evaluation, for ports of any width (44_decode.md R110). All are computed for every input, for a message
too short as well: DESIGN CHOICE (safe, log 8), the hardware reading that 40_extract.md R73 allows and the vectors list. -/
def evalNets {lw dw : Nat} (len : BitVec lw) (data : BitVec dw) : Nets :=
  let b1 := lane data Config.sigOffset
  let b2 := lane data (Config.sigOffset + 1)
  let rawU := joinLittleEndian b1 b2
  let kph := kphNet rawU
  { lenOk := lenOkNet len
    b1 := b1
    b2 := b2
    rawU := rawU
    raw := rawU
    kph := kph
    isOver := overNet kph
    neg := negNet rawU
    sentinel := sentinelNet rawU
    valid := validNet (lenOkNet len) (negNet rawU) (overNet kph)
    mphFull := mphFullNet kph }

/-- The result the nets give (43_convert.md R104): the speed when `valid` is 1, else absence. -/
def resultOf (n : Nets) : Option F64 := if n.valid then some n.mphFull else none

/-- The output ports of a result: `present(v)` or `absent` (30_encoding.md R54). -/
def encodeResult : Option F64 → OutputPorts
  | some v => ⟨true, v⟩
  | none => ⟨false, Config.absentBits⟩

/-- The output ports of one evaluation, for ports of any width (44_decode.md R110). -/
def evalOutputs {lw dw : Nat} (len : BitVec lw) (data : BitVec dw) : OutputPorts :=
  encodeResult (resultOf (evalNets len data))

end Sys2Proof.Machine
end

