-- ==== Sys2Proof/Machine/Ops.lean ====
section
/-! DEFINITION. The named operations on the state: what the host does to the ports, what a stage writes, and what an error
condition does. -/

namespace Sys2Proof.Machine

/-- How an evaluation or a stage ends. -/
abbrev StepOutcome := Host.Outcome State Fault Refusal

/-- The state of the block with a value on its input ports: the output ports are DECODE of it (10_state.md R19, 20_memory.md R41),
and nothing else is held (10_state.md R10). -/
def State.ofInputs (p : InputPorts) : State where
  msgLen := p.msgLen
  msgData := p.msgData
  present := (evalOutputs p.msgLen p.msgData).present
  mph := (evalOutputs p.msgLen p.msgData).mph
  probe := none

/-- The host drives the input ports (60_exceptions.md §8); nothing else drives them, for the block writes no input (20_memory.md
R37). The outputs follow at once: they are at all times DECODE of the inputs (10_state.md R19, 20_memory.md R41), so nothing of
the state before is left (10_state.md R10). The settling time is no part of the model (log 15). -/
def State.drive (_ : State) (p : InputPorts) : State := State.ofInputs p

/-- The value on the input ports. -/
def State.inputs (s : State) : InputPorts := ⟨s.msgLen, s.msgData⟩

/-- The value on the output ports, which is all a host can read (10_state.md R14). -/
def State.outputs (s : State) : OutputPorts := ⟨s.present, s.mph⟩

/-- The nets (10_state.md R15): functions of the input ports, unless a row of the table was performed on other net values. -/
def State.nets (s : State) : Nets := s.probe.getD (evalNets s.msgLen s.msgData)

/-- Give the nets a value. Nothing is held when it is the value the input ports give them anyway (10_state.md R10), so equal
states are equal data. -/
def State.setNets (s : State) (n : Nets) : State :=
  { s with probe := if n = evalNets s.msgLen s.msgData then none else some n }

/-- LENCHK's net (40_extract.md R70). -/
def State.setLenOk (s : State) (v : Bool) : State := s.setNets { s.nets with lenOk := v }

/-- EXTRACT's nets (40_extract.md R71). -/
def State.setBytes (s : State) (b1 b2 : Byte) : State := s.setNets { s.nets with b1 := b1, b2 := b2 }

/-- LE16S's nets (40_extract.md R72). -/
def State.setRaw (s : State) (rawU raw : Word16) : State := s.setNets { s.nets with rawU := rawU, raw := raw }

/-- FX2F's net (41_scale.md R80). -/
def State.setKph (s : State) (v : F64) : State := s.setNets { s.nets with kph := v }

/-- RANGE's nets (42_range.md R90, R93, R94, R95). -/
def State.setRange (s : State) (isOver neg sentinel valid : Bool) : State :=
  s.setNets { s.nets with isOver := isOver, neg := neg, sentinel := sentinel, valid := valid }

/-- KPH2MPH's net (43_convert.md R100). -/
def State.setMphFull (s : State) (v : F64) : State := s.setNets { s.nets with mphFull := v }

/-- Drive the output ports (43_convert.md R104). -/
def State.setOutputs (s : State) (o : OutputPorts) : State := { s with present := o.present, mph := o.mph }

/-- Taking an error condition, the block's whole "trap entry" (60_exceptions.md R125): `present <- 0`, `mph <- ABSENT_BITS`.
It saves nothing, masks nothing and sends control nowhere, so there is no return and nothing to restore (R126). -/
def State.takeAbsence (s : State) : State := s.setOutputs (encodeResult none)

/-- Presenting a speed (43_convert.md R104). -/
def State.presentSpeed (s : State) (v : F64) : State := s.setOutputs (encodeResult (some v))

/-- The selection of 43_convert.md R104: the speed when `valid` is 1, absence when it is 0. -/
def State.select (s : State) (valid : Bool) (mphFull : F64) : State :=
  if valid then s.presentSpeed mphFull else s.takeAbsence

end Sys2Proof.Machine
end

