-- ==== Sys2Proof/Machine/Convert.lean ====
section
/-! DEFINITION. Stages 6 and 7, conversion to miles per hour and the output (43_convert.md). -/

namespace Sys2Proof.Machine

/-- KPH2MPH (43_convert.md R100): it reads `kph` and writes `mph_full`. -/
def execKph2mph (s : State) : StepOutcome := .next (s.setMphFull (mphFullNet s.nets.kph))

/-- OUT (43_convert.md R104): it reads `valid` and `mph_full` and drives the output ports; `valid = 0` hides `mph_full`
completely. -/
def execOut (s : State) : StepOutcome := .next (s.select s.nets.valid s.nets.mphFull)

end Sys2Proof.Machine
end

