-- ==== Sys2Proof/Machine/Extract.lean ====
section
/-! DEFINITION. Stages 1 to 3, the little-endian 16-bit signed integer extractor (40_extract.md). -/

namespace Sys2Proof.Machine

/-- LENCHK (40_extract.md R70): it reads `msg_len` and writes `len_ok`; `msg_data` is not looked at. -/
def execLenchk (s : State) : StepOutcome := .next (s.setLenOk (lenOkNet s.msgLen))

/-- EXTRACT (40_extract.md R71): `b1` and `b2` are lanes 1 and 2 of `msg_data` for every length, a selection of wires that
cannot fault (R73). -/
def execExtract (s : State) : StepOutcome :=
  .next (s.setBytes (lane s.msgData Config.sigOffset) (lane s.msgData (Config.sigOffset + 1)))

/-- LE16S (40_extract.md R72): `raw_u <- b2 ∥ b1`, and `raw` is the same 16 bits, read as a two's-complement number. -/
def execLe16s (s : State) : StepOutcome :=
  .next (s.setRaw (joinLittleEndian s.nets.b1 s.nets.b2) (joinLittleEndian s.nets.b1 s.nets.b2))

end Sys2Proof.Machine
end

