-- ==== Sys2Proof/Machine/Range.lean ====
section
/-! DEFINITION. Stage 5, the range comparator and the validity tests (42_range.md). -/

namespace Sys2Proof.Machine

/-- RANGE (42_range.md R90, R93, R94, R95): it reads `len_ok`, `raw_u` and `kph` and writes `over`, `neg`, `sentinel` and
`valid`; the conditions are evaluated side by side, none gating another. -/
def execRange (s : State) : StepOutcome :=
  let isOver := overNet s.nets.kph
  let neg := negNet s.nets.rawU
  .next (s.setRange isOver neg (sentinelNet s.nets.rawU) (validNet s.nets.lenOk neg isOver))

end Sys2Proof.Machine
end

