-- ==== Sys2Proof/Machine/Scale.lean ====
section
/-! DEFINITION. Stage 4, the fixed-point to float converter with the 1/256 scaler (41_scale.md). -/

namespace Sys2Proof.Machine

/-- FX2F (41_scale.md R80, R81): it reads `raw` and writes `kph`. -/
def execFx2f (s : State) : StepOutcome := .next (s.setKph (kphNet s.nets.raw))

end Sys2Proof.Machine
end

