-- ==== Sys2Proof/Machine/Whole.lean ====
section
/-! DEFINITION. The whole operation DECODE, on the ports and on byte lists (44_decode.md). -/

namespace Sys2Proof.Machine

/-- DECODE (44_decode.md R110): the seven stages on the presented message, whose fields are the operands. It writes the nets
and the output ports and leaves the input ports as they are (20_memory.md R37). -/
def execDecode (len : BitVec Config.lenW) (ign0 sigLo sigHi : Byte) (rest : BitVec Config.restW) (s : State) :
    StepOutcome :=
  let n := evalNets len (joinLanes ign0 sigLo sigHi rest)
  .next ((s.setNets n).select n.valid n.mphFull)

/-- `rne64(raw × val(MPH_PER_KPH) ÷ 256)` for a non-negative `raw` (44_decode.md R114): `raw × C × 2^−61` rounded once. -/
def roundedMph (raw : Nat) : F64 := if raw = 0 then 0x0000000000000000#64 else rne64 false (raw * mphSignificand) (-61)

/-- `decode(L)`: DECODE as the document's function on byte lists, independent of the ports (44_decode.md R114). -/
def decodeList (L : List Byte) : Option F64 :=
  match L with
  | _ :: b1 :: b2 :: _ =>
    let raw := sint16 (joinLittleEndian b1 b2)
    if raw < 0 ∨ f64Val Config.kphMax < (raw : ℚ) / 256 then none else some (roundedMph raw.toNat)
  | _ => none

end Sys2Proof.Machine
end

