-- ==== Sys2Proof/Machine/Dispatch.lean ====
section
/-! DEFINITION. The dispatch: one arm per constructor of Instr. -/

namespace Sys2Proof.Machine

def exec (i : Instr) (s : State) : Host.Outcome State Fault Refusal :=
  match i with
  | .decode len ign0 sigLo sigHi rest => Sys2Proof.Machine.execDecode len ign0 sigLo sigHi rest s
  | .lenchk => Sys2Proof.Machine.execLenchk s
  | .extract => Sys2Proof.Machine.execExtract s
  | .le16s => Sys2Proof.Machine.execLe16s s
  | .fx2f => Sys2Proof.Machine.execFx2f s
  | .range => Sys2Proof.Machine.execRange s
  | .kph2mph => Sys2Proof.Machine.execKph2mph s
  | .out => Sys2Proof.Machine.execOut s

end Sys2Proof.Machine
end

