-- ==== Sys2Proof/Machine/Fetch.lean ====
section
/-! DEFINITION. What stands on the input ports: the operation the next evaluation performs, and how a message or a word of the
opcode table is presented. -/

namespace Sys2Proof.Machine

/-- The operation on the input ports: DECODE of the message there (30_encoding.md R51). There is no program counter and no
fetch from a memory (10_state.md R12); the ports are read at one instant (20_memory.md R38). -/
def fetchInstr (s : State) : Instr := decodeInputs s.msgLen s.msgData

/-- The host presents a message: `DECODE [b0 b1 b2 ...]` (30_encoding.md R57, R58). -/
def State.presentMessage (s : State) (L : List Byte) : State := s.drive ⟨presentedLen L, presentedData L⟩

/-- The host presents a word of the opcode table on the input ports: its bits on the lanes from bit 0 on, zeros above
(log 4). -/
def presentWord (s : State) (nbits w : Nat) : State := s.drive ⟨tableLen, tableData nbits w⟩

end Sys2Proof.Machine
end

