-- ==== Sys2Proof/Machine/Step.lean ====
section
/-! DEFINITION. The step: one evaluation of what stands on the input ports (70_reset_and_hazards.md R146). -/

namespace Sys2Proof.Machine

/-- One step is one evaluation (70_reset_and_hazards.md R146): the operation on the input ports is performed. Every step is
enabled for every input, and nothing is added around the operation: there is no program counter to move. -/
def step (s : State) : Host.Outcome State Fault Refusal := exec (fetchInstr s) s

/-- `s` with a word of the opcode table where the next step reads its operation: on the input ports (log 4). -/
def State.withFetchWord (s : State) (nbits w : Nat) : State := presentWord s nbits w

end Sys2Proof.Machine
end

