-- ==== Sys2Proof/Machine/Run.lean ====
section
/-! DEFINITION. A run: a finite sequence of inputs that the host presents, one evaluation each (70_reset_and_hazards.md R146). -/

namespace Sys2Proof.Machine

/-- The host presents one input and reads the outputs of its evaluation (70_reset_and_hazards.md R146). -/
def evaluate (s : State) (p : InputPorts) : StepOutcome := step (s.drive p)

/-- A run: the state at its end and the list of the individual outputs, in order (70_reset_and_hazards.md R146). The run is
over when the host stops presenting inputs. -/
def runEvaluations : State → List InputPorts → Host.Outcome (State × List OutputPorts) Fault Refusal
  | s, [] => .next (s, [])
  | s, p :: ps =>
    match evaluate s p with
    | .fault r => .fault r
    | .refused r => .refused r
    | .next t =>
      match runEvaluations t ps with
      | .fault r => .fault r
      | .refused r => .refused r
      | .next (u, outs) => .next (u, t.outputs :: outs)

/-- A list of operations performed one after the other: "perform the stages in `order`" (30_encoding.md R59). -/
def performAll : List Instr → State → StepOutcome
  | [], s => .next s
  | i :: is, s =>
    match exec i s with
    | .fault r => .fault r
    | .refused r => .refused r
    | .next t => performAll is t

end Sys2Proof.Machine
end

