-- ==== Sys2Proof/Safety.lean ====
section
/-! DEFINITION. What the spec promises of a state and of a run, in the terms the statements use. -/

namespace Sys2Proof

open Sys2Proof.Machine

/-- A state the block can be in: both outputs are DECODE of the input ports and nothing but the ports is held, so that every net is
that of the input ports too (10_state.md R10 and R19, 44_decode.md R110). -/
abbrev Settled (s : State) : Prop := s.probe = none ∧ s.outputs = evalOutputs s.msgLen s.msgData

/-- The model's own field holds no net values that the input ports give anyway (log 1). -/
abbrev NetsCanonical (s : State) : Prop := s.probe ≠ some (evalNets s.msgLen s.msgData)

/-- The block's input ports, and with them every byte of the message, are the same in both states (20_memory.md R37). -/
def SameMessage (s t : State) : Prop :=
  t.msgLen = s.msgLen ∧ t.msgData = s.msgData ∧ ∀ a, memRead t a = memRead s a

/-- The output ports are the same in both states. -/
def SameOutputs (s t : State) : Prop := t.present = s.present ∧ t.mph = s.mph

/-- The upper end of the document's interval, `250.996 × 0.6213712`, exactly (44_decode.md R113, 43_convert.md R105). -/
def mphBound : ℚ := Config.kphMaxLiteral * Config.mphPerKphLiteral

/-- The range invariant (44_decode.md R113) with the absence encoding (30_encoding.md R54): a present speed is a finite number in
the closed interval [0, 250.996 × 0.6213712], and an absent one shows `ABSENT_BITS`. -/
def SafeOutputs (s : State) : Prop :=
  (s.present = true → f64IsFinite s.mph = true ∧ 0 ≤ f64Val s.mph ∧ f64Val s.mph ≤ mphBound) ∧
  (s.present = false → s.mph = Config.absentBits)

/-- `b` is `rne64(q)`: a finite pattern at least as near to `q` as every finite pattern, and with an even fraction field when a
pattern of another value is equally near (00_scope.md §5). -/
def IsNearestEven (q : ℚ) (b : F64) : Prop :=
  f64IsFinite b = true ∧ ∀ c : F64, f64IsFinite c = true →
    |f64Val b - q| ≤ |f64Val c - q| ∧
    (f64Val c ≠ f64Val b → |f64Val b - q| = |f64Val c - q| → f64Frac b % 2 = 0)

/-- The lanes 1 and 2 of the two data ports carry the same bytes (20_memory.md R32: the only lanes any output can depend on). -/
def SameSignalLanes {dw dw' : Nat} (d : BitVec dw) (d' : BitVec dw') : Prop := lane d 1 = lane d' 1 ∧ lane d 2 = lane d' 2

/-- The lanes `0` to `length(L) − 1` of a data port carry the bytes of `L` (44_decode.md R114); the other lanes carry
anything. -/
def LanesCarry {dw : Nat} (d : BitVec dw) (L : List Byte) : Prop := ∀ i b, L[i]? = some b → lane d i = b

/-- `N`, `L` and `sh` of the integer procedure for a positive raw value (43_convert.md R102): the exact product. -/
def productOf (raw : Nat) : Nat := raw * mphSignificand

/-- The number of bits the rounding shifts out (43_convert.md R102, `sh`). -/
def shiftOf (raw : Nat) : Nat := bitLength (productOf raw) - 53

/-- The bits shifted out (43_convert.md R102, `r`). -/
def remainderOf (raw : Nat) : Nat := productOf raw % 2 ^ shiftOf raw

/-- The product is exact (43_convert.md R103). -/
abbrev ExactProduct (raw : Nat) : Prop := remainderOf raw = 0

/-- The product lies exactly half way between two patterns (43_convert.md R103). -/
abbrev TieProduct (raw : Nat) : Prop := 0 < shiftOf raw ∧ remainderOf raw = 2 ^ (shiftOf raw - 1)

end Sys2Proof
end

