-- ==== Sys2Proof/Certificates/Slice0/Obligations.lean ====
section
/-! DEFINITION. The statements for the provers. Each docstring names the rule of spec/ it formalises, or says that it is the
model's own and names the log entry. -/

open Sys2Proof Sys2Proof.Machine

/-! ### Encoding and the input ports -/

/-- Tier 3. On well-formed operations decode and encode agree, with every field at every value; and no bit of the input ports is
dropped (30_encoding.md R50, R51). -/
def Obligations.DecodeAndEncodeAgree : Prop :=
  (∀ i : Instr, i.wellFormed = true → ∃ len data, encode i = some (len, data) ∧ decodeInputs len data = i) ∧
  (∀ len data, encode (decodeInputs len data) = some (len, data))

/-- Tier 1. Every value of the ports, and every word of the opcode table, selects DECODE (mask 0, match 0), and no stage is
selected by anything (30_encoding.md R51). -/
def Obligations.EveryInputSelectsDecode : Prop :=
  (∀ len data, ∃ a b c r, decodeInputs len data = Instr.decode len a b c r) ∧
  (∀ nbits w : Nat, w &&& 0 = 0 ∧ ∃ len a b c r, decodeTableWord nbits w = some (Instr.decode len a b c r)) ∧
  (∀ i ∈ stagesInOrder, encode i = none ∧ ∀ len data, decodeInputs len data ≠ i)

/-- Tier 1. Messages written out from the format of 30_encoding.md R50 decode to the operation they stand for: `[12 34 56 78]`,
the one-byte message `[FF]`, and `[A5 9A 3C 5A C3 3C 0F]` (95_test_vectors.md V39, V28, V40). -/
def Obligations.KnownMessagesDecode : Prop :=
  decodeInputs 4#4 0x0000000078563412#64 = Instr.decode 4#4 0x12#8 0x34#8 0x56#8 0x0000000078#40 ∧
  decodeInputs 1#4 0x00000000000000FF#64 = Instr.decode 1#4 0xFF#8 0x00#8 0x00#8 0x0000000000#40 ∧
  decodeInputs 7#4 0x000F3CC35A3C9AA5#64 = Instr.decode 7#4 0xA5#8 0x9A#8 0x3C#8 0x000F3CC35A#40

/-- Tier 1. A step runs the operation on the input ports: whatever well-formed operation has the value of the input ports for its
encoding is what the step performs, with nothing added around it (70_reset_and_hazards.md R146, 30_encoding.md R51). -/
def Obligations.StepRunsThePresentedOperation : Prop :=
  (∀ (s : State) (i : Instr), i.wellFormed = true → encode i = some (s.msgLen, s.msgData) → step s = exec i s) ∧
  (∀ s : State, (fetchInstr s).wellFormed = true ∧ encode (fetchInstr s) = some (s.msgLen, s.msgData))

/-- Tier 1. Bit `k` of the byte at index `i` is `msg_data[8i + k]`, bit 7 being the most significant (20_memory.md R34). -/
def Obligations.BitsOfALane : Prop :=
  ∀ (s : State) (i k : Nat), i < 8 → k < 8 →
    (lane s.msgData i).getLsbD k = s.msgData.getLsbD (8 * i + k) ∧
    (lane s.msgData i).msb = s.msgData.getLsbD (8 * i + 7) ∧
    (lane s.msgData i).toNat = s.msgData.toNat / 2 ^ (8 * i) % 256

/-- Tier 2. The fields of a message (30_encoding.md R50): none below 3 bytes; else each field at its bits, `SIG` on
`[23:8]`, and `IGN3` from byte 3 to byte `min(n, MSG_MAX) − 1`. -/
def Obligations.FieldsOfTheMessage : Prop :=
  ∀ len data,
    (fieldsOf len data = none ↔ len.toNat < 3) ∧
    ∀ f, fieldsOf len data = some f →
      f.ign0 = data.extractLsb' 0 8 ∧ f.sigLo = data.extractLsb' 8 8 ∧ f.sigHi = data.extractLsb' 16 8 ∧
      f.sigHi ++ f.sigLo = data.extractLsb' 8 16 ∧
      f.ign3.length = min len.toNat 8 - 3 ∧
      ∀ k, k < f.ign3.length → f.ign3[k]? = some (data.extractLsb' (24 + 8 * k) 8)

/-- Tier 1. `msg_len` (30_encoding.md R52): 0, 1 and 2 are too short, and every value of at least 3, above `MSG_MAX` too, gives
the same result as 3. -/
def Obligations.OnlyLengthThreeMatters : Prop :=
  ∀ s t : State, step s = .next t →
    (s.msgLen.toNat < 3 → t.present = false) ∧
    (3 ≤ s.msgLen.toNat → ∀ u, step (s.drive ⟨3#4, s.msgData⟩) = .next u → u.outputs = t.outputs)

/-! ### The message as memory -/

/-- Tier 2. No operation writes the message: the input ports and every byte of it read as before (20_memory.md R37). -/
def Obligations.NoOperationWritesTheMessage : Prop :=
  (∀ (i : Instr) (s t : State), exec i s = .next t → SameMessage s t) ∧
  (∀ s t : State, step s = .next t → SameMessage s t)

/-- Tier 2. Which lanes the outputs can depend on (20_memory.md R32). Lanes at or above the length are not part of the message
and no output depends on them; below 3 bytes the result is absence whatever `msg_data` holds; from 3 bytes on lanes 1 and 2 are
inside the message; lane 0 and lanes 3 and higher influence no output for any length.
The spec marks 20_memory.md R32 as derived, an inference of its own. -/
def Obligations.OutputsIgnoreLanesOutsideTheSignal : Prop :=
  (∀ (s : State) (i : Nat), s.msgLen.toNat ≤ i → memRead s i = none) ∧
  (∀ s s' t t' : State, step s = .next t → step s' = .next t' → s.msgLen = s'.msgLen →
    (∀ i < s.msgLen.toNat, lane s.msgData i = lane s'.msgData i) → t.outputs = t'.outputs) ∧
  (∀ s t : State, step s = .next t → s.msgLen.toNat < 3 → t.outputs = ⟨false, 0x7FF8000000000000#64⟩) ∧
  (∀ s : State, 3 ≤ s.msgLen.toNat → (memRead s 1).isSome = true ∧ (memRead s 2).isSome = true) ∧
  (∀ s s' t t' : State, step s = .next t → step s' = .next t' → s.msgLen = s'.msgLen →
    SameSignalLanes s.msgData s'.msgData → t.outputs = t'.outputs)

/-! ### The stages, each with its completion, its result and its frame -/

/-- Tier 1. LENCHK completes on every state and writes `len_ok` alone, which is 1 exactly when `msg_len` is at least 3; a short
message ends in absence (40_extract.md R70). -/
def Obligations.LenchkTestsTheLength : Prop :=
  (∀ s : State, ∃ t, exec .lenchk s = .next t ∧ SameMessage s t ∧ SameOutputs s t ∧
    t.nets = { s.nets with lenOk := t.nets.lenOk } ∧
    (t.nets.lenOk = true ↔ 3 ≤ s.msgLen.toNat) ∧
    t.nets.lenOk =
      (s.msgLen.getLsbD 3 || s.msgLen.getLsbD 2 || (s.msgLen.getLsbD 1 && s.msgLen.getLsbD 0))) ∧
  (∀ s t : State, step s = .next t → t.nets.lenOk = false → t.nets.valid = false ∧ t.present = false)

/-- Tier 1. EXTRACT completes on every state and writes `b1` and `b2` alone, the bits `[15:8]` and `[23:16]` of `msg_data`, which
are the message's bytes at index 1 and 2 when it has 3 bytes or more (40_extract.md R71). -/
def Obligations.ExtractTakesTheSignalBytes : Prop :=
  ∀ s : State, ∃ t, exec .extract s = .next t ∧ SameMessage s t ∧ SameOutputs s t ∧
    t.nets = { s.nets with b1 := s.msgData.extractLsb' 8 8, b2 := s.msgData.extractLsb' 16 8 } ∧
    (3 ≤ s.msgLen.toNat → memRead s 1 = some t.nets.b1 ∧ memRead s 2 = some t.nets.b2)

/-- Tier 2. LE16S completes on every state and writes `raw_u` and `raw` alone: `uint(raw_u) = 256 × uint(b2) + uint(b1)`, read in
two's complement; every integer from −32768 to 32767 is reached, and `0xFFFF` is −1 (40_extract.md R72, R75). -/
def Obligations.Le16sReadsTwosComplement : Prop :=
  (∀ s : State, ∃ t, exec .le16s s = .next t ∧ SameMessage s t ∧ SameOutputs s t ∧
    t.nets = { s.nets with rawU := t.nets.rawU, raw := t.nets.raw } ∧
    t.nets.rawU = s.nets.b2 ++ s.nets.b1 ∧
    t.nets.rawU.toNat = 256 * s.nets.b2.toNat + s.nets.b1.toNat ∧
    sint16 t.nets.raw =
      (if t.nets.rawU.getLsbD 15 = true then (t.nets.rawU.toNat : Int) - 65536 else (t.nets.rawU.toNat : Int)) ∧
    -32768 ≤ sint16 t.nets.raw ∧ sint16 t.nets.raw ≤ 32767) ∧
  (∀ z : Int, -32768 ≤ z → z ≤ 32767 → ∃ b1 b2 : Byte, sint16 (joinLittleEndian b1 b2) = z) ∧
  sint16 (joinLittleEndian 0xFF#8 0xFF#8) = -1

/-- Tier 2. FX2F completes on every state and writes `kph` alone: a finite pattern of value exactly `raw ÷ 256`, +0 for raw 0
(41_scale.md R80). -/
def Obligations.Fx2fDividesExactly : Prop :=
  f64Val Config.scaleDiv = 256 ∧
  ∀ s : State, ∃ t, exec .fx2f s = .next t ∧ SameMessage s t ∧ SameOutputs s t ∧
    t.nets = { s.nets with kph := t.nets.kph } ∧
    f64IsFinite t.nets.kph = true ∧
    f64Val t.nets.kph = (sint16 s.nets.raw : ℚ) / f64Val Config.scaleDiv ∧
    (s.nets.raw = 0#16 → t.nets.kph = 0x0000000000000000#64)

/-- Tier 2. FX2F at bit level (41_scale.md R81): for raw not 0, with `m = |raw|` and `p` the position of its leading one, the sign
is that of raw, the exponent field `1023 + p − 8` and the fraction `(m − 2^p) × 2^(52 − p)`.
The spec marks 41_scale.md R81 as derived, an inference of its own. -/
def Obligations.Fx2fAtBitLevel : Prop :=
  ∀ s t : State, exec .fx2f s = .next t →
    (s.nets.raw = 0#16 → t.nets.kph = 0x0000000000000000#64) ∧
    ∀ p : Nat, s.nets.raw ≠ 0#16 → 2 ^ p ≤ (sint16 s.nets.raw).natAbs → (sint16 s.nets.raw).natAbs < 2 ^ (p + 1) →
      p ≤ 15 ∧ (sint16 s.nets.raw).natAbs ≤ 32768 ∧
      (f64Sign t.nets.kph = true ↔ sint16 s.nets.raw < 0) ∧
      f64Exp t.nets.kph = 1023 + p - 8 ∧ 1015 ≤ f64Exp t.nets.kph ∧ f64Exp t.nets.kph ≤ 1030 ∧
      f64Frac t.nets.kph = ((sint16 s.nets.raw).natAbs - 2 ^ p) * 2 ^ (52 - p)

/-- Tier 2. RANGE completes on every state and writes `over`, `neg`, `sentinel` and `valid` alone (42_range.md R90, R93, R94).
The value of `over` is stated for a finite `kph` only, and for a subnormal it rests on log 12 (PRESUMED); what `over` is for an
infinity or a NaN is no part of this statement (RangeOnAPatternWithoutValue says it).
The clause on `valid` formalises 42_range.md R95, which the spec marks as derived, an inference of its own. -/
def Obligations.RangeWritesItsFourNets : Prop :=
  ∀ s : State, ∃ t, exec .range s = .next t ∧ SameMessage s t ∧ SameOutputs s t ∧
    t.nets = { s.nets with
      isOver := t.nets.isOver, neg := t.nets.neg, sentinel := t.nets.sentinel, valid := t.nets.valid } ∧
    (f64IsFinite s.nets.kph = true → (t.nets.isOver = true ↔ f64Val Config.kphMax < f64Val s.nets.kph)) ∧
    (t.nets.neg = true ↔ sint16 s.nets.rawU < 0) ∧
    (t.nets.sentinel = true ↔ s.nets.rawU = 0xFFFF#16) ∧
    (t.nets.valid = true ↔ s.nets.lenOk = true ∧ t.nets.neg = false ∧ t.nets.isOver = false)

/-- Tier 2. KPH2MPH completes on every state and writes `mph_full` alone: for every finite `kph` the binary64 pattern nearest to
the exact product with `MPH_PER_KPH`, ties to even, with the sign of `kph` when that is not a zero, and +0 for +0 (43_convert.md
R100; +0 is its R102, which the spec marks as derived). The finite patterns include the subnormals, whose value is the model's
choice (log 12, PRESUMED). For every other `kph` it says that the operation completes and writes no other net, not which value
(Kph2mphOnAPatternWithoutProduct says more). -/
def Obligations.Kph2mphRoundsTheProductOnce : Prop :=
  ∀ s : State, ∃ t, exec .kph2mph s = .next t ∧ SameMessage s t ∧ SameOutputs s t ∧
    t.nets = { s.nets with mphFull := t.nets.mphFull } ∧
    (f64IsFinite s.nets.kph = true →
      IsNearestEven (f64Val s.nets.kph * f64Val Config.mphPerKph) t.nets.mphFull ∧
      (f64Val s.nets.kph ≠ 0 → f64Sign t.nets.mphFull = f64Sign s.nets.kph)) ∧
    (s.nets.kph = 0x0000000000000000#64 → t.nets.mphFull = 0x0000000000000000#64)

/-- Tier 1. RANGE on a `kph` that has no value: it completes, and `over` is the free value of log 9 for a NaN (DESIGN CHOICE), 1 for
the positive and 0 for the negative infinity (log 12, PRESUMED), with `valid` computed from it. The spec states
no result for a NaN and spells out none for an infinity, and no step produces either (41_scale.md R82, which the spec marks as
derived, as it marks the rule of `valid`, 42_range.md R95). -/
def Obligations.RangeOnAPatternWithoutValue : Prop :=
  ∀ s : State, ∃ t, exec .range s = .next t ∧
    (f64Class s.nets.kph = .nan → t.nets.isOver = Config.unorderedGreater s.nets.kph Config.kphMax) ∧
    (f64Class s.nets.kph = .infinity → t.nets.isOver = !f64Sign s.nets.kph) ∧
    t.nets.valid = (s.nets.lenOk && !t.nets.neg && !t.nets.isOver)

/-- Tier 1. KPH2MPH on a `kph` whose product the spec does not state: it completes, with the free value of log 10 for an infinity or a
NaN, and for −0 a zero whose sign is the free value of log 11 (both DESIGN CHOICE). No step produces such a `kph` (41_scale.md R82,
which the spec marks as derived). -/
def Obligations.Kph2mphOnAPatternWithoutProduct : Prop :=
  ∀ s : State, ∃ t, exec .kph2mph s = .next t ∧
    (f64IsFinite s.nets.kph = false → t.nets.mphFull = Config.nonFiniteProduct s.nets.kph) ∧
    (s.nets.kph = 0x8000000000000000#64 → f64Class t.nets.mphFull = .zero ∧
      f64Sign t.nets.mphFull = Config.negZeroProductSign)

/-- Tier 1. OUT completes on every state and drives the output ports alone: `present` is `valid`, and `mph` is `mph_full` when
`valid` is 1, else `0x7FF8000000000000` (43_convert.md R104). -/
def Obligations.OutPresentsTheResult : Prop :=
  ∀ s : State, ∃ t, exec .out s = .next t ∧ SameMessage s t ∧ t.nets = s.nets ∧
    t.present = s.nets.valid ∧
    (s.nets.valid = true → t.mph = s.nets.mphFull) ∧
    (s.nets.valid = false → t.mph = 0x7FF8000000000000#64)

/-- Tier 2. DECODE completes for every operand and every state, and writes the nets and the output ports alone, each as the rule
of its stage says (44_decode.md R110 with R70, R71, R72, R80, R90, R93, R94 and R104). Two clauses formalise rules that the spec
marks as derived, inferences of its own: `mph_full` is the integer procedure of 43_convert.md R102, where R110 writes `rne64` of the
product (IntegerProcedureGivesMphFull says that the two agree), and `valid` is 42_range.md R95. -/
def Obligations.DecodePerformsTheSevenStages : Prop :=
  ∀ (len : BitVec Config.lenW) (ign0 sigLo sigHi : Byte) (rest : BitVec Config.restW) (s : State),
    ∃ t, exec (.decode len ign0 sigLo sigHi rest) s = .next t ∧ SameMessage s t ∧
      (t.nets.lenOk = true ↔ 3 ≤ len.toNat) ∧
      t.nets.b1 = sigLo ∧ t.nets.b2 = sigHi ∧
      t.nets.rawU = sigHi ++ sigLo ∧
      sint16 t.nets.raw = (sigHi ++ sigLo).toInt ∧
      f64IsFinite t.nets.kph = true ∧ f64Val t.nets.kph = ((sigHi ++ sigLo).toInt : ℚ) / 256 ∧
      t.nets.isOver = f64Gt t.nets.kph 0x406F5FDF3B645A1D#64 ∧
      t.nets.neg = (sigHi ++ sigLo).getLsbD 15 ∧
      (t.nets.sentinel = true ↔ sigHi ++ sigLo = 0xFFFF#16) ∧
      (t.nets.valid = true ↔ t.nets.lenOk = true ∧ t.nets.neg = false ∧ t.nets.isOver = false) ∧
      t.nets.mphFull = mphFullProcedure (sigHi ++ sigLo) ∧
      t.present = t.nets.valid ∧
      t.mph = if t.nets.valid = true then t.nets.mphFull else 0x7FF8000000000000#64

/-- Tier 2. Performing the seven stages in their order does what one step, DECODE of the input ports, does (30_encoding.md R59). -/
def Obligations.StagesInOrderAreDecode : Prop :=
  ∀ s : State, performAll stagesInOrder s = step s

/-! ### The arithmetic over all signal values -/

/-- Tier 2. The constants (30_encoding.md R55): their fields, their exact values, and that each decimal literal has its constant
for the one nearest binary64 value, with no tie; `KPH_MAX × 256` lies strictly between 64254 and 64255. -/
def Obligations.ConstantsAreTheNearestPatterns : Prop :=
  (f64Sign Config.scaleDiv = false ∧ f64Exp Config.scaleDiv = 1031 ∧ f64Significand Config.scaleDiv = 0x10000000000000 ∧
    f64Val Config.scaleDiv = 256) ∧
  (f64Sign Config.kphMax = false ∧ f64Exp Config.kphMax = 1030 ∧ f64Significand Config.kphMax = 8831136656808477 ∧
    f64Val Config.kphMax = 250.996000000000009322320693172514438629150390625) ∧
  (f64Sign Config.mphPerKph = false ∧ f64Exp Config.mphPerKph = 1022 ∧
    f64Significand Config.mphPerKph = 5596814209557516 ∧
    f64Val Config.mphPerKph = 0.621371200000000012408918337314389646053314208984375) ∧
  (∀ c : F64, f64IsFinite c = true → f64Val c ≠ f64Val Config.kphMax →
    |f64Val Config.kphMax - 250.996| < |f64Val c - 250.996|) ∧
  (∀ c : F64, f64IsFinite c = true → f64Val c ≠ f64Val Config.mphPerKph →
    |f64Val Config.mphPerKph - 0.6213712| < |f64Val c - 0.6213712|) ∧
  f64Val Config.kphMax * 256 = 64254.9760000000023865140974521636962890625 ∧
  64254 < f64Val Config.kphMax * 256 ∧ f64Val Config.kphMax * 256 < 64255

/-- Tier 2. On finite patterns the comparator is "greater than" of the exact values (00_scope.md section 5, `f64_gt`). The value
of a subnormal and the order of the two zeros are those of IEEE 754, which the spec names and does not spell out: that part is the
model's choice (log 12, PRESUMED). The infinities are left to InfinitiesLieBeyondTheFinitePatterns. -/
def Obligations.GreaterThanComparesValues : Prop :=
  ∀ a b : F64, f64IsFinite a = true → f64IsFinite b = true → (f64Gt a b = true ↔ f64Val b < f64Val a)

/-- Tier 1. The comparator places the positive infinity above and the negative one below every finite pattern, as IEEE 754 does:
the spec names that "greater than" and does not spell it out, and the order is the model's choice (log 12, PRESUMED). -/
def Obligations.InfinitiesLieBeyondTheFinitePatterns : Prop :=
  ∀ b : F64, f64IsFinite b = true →
    f64Gt 0x7FF0000000000000#64 b = true ∧ f64Gt b 0x7FF0000000000000#64 = false ∧
    f64Gt b 0xFFF0000000000000#64 = true ∧ f64Gt 0xFFF0000000000000#64 b = false

/-- Tier 2. The range of `kph` over the 65536 values of `raw` (41_scale.md R82).
The spec marks 41_scale.md R82 as derived, an inference of its own. -/
def Obligations.RangeOfKph : Prop :=
  (∀ raw raw' : Word16, kphNet raw = kphNet raw' → raw = raw') ∧
  (∀ raw raw' : Word16, sint16 raw < sint16 raw' → f64Val (kphNet raw) < f64Val (kphNet raw')) ∧
  (∀ raw : Word16, ∃ z : Int, f64Val (kphNet raw) = (z : ℚ) * 2 ^ (-8 : Int)) ∧
  (kphNet 0x8000#16 = 0xC060000000000000#64 ∧ f64Val (kphNet 0x8000#16) = -128) ∧
  (kphNet 0x7FFF#16 = 0x405FFFC000000000#64 ∧ f64Val (kphNet 0x7FFF#16) = 127.99609375) ∧
  (∀ raw : Word16, -128 ≤ f64Val (kphNet raw) ∧ f64Val (kphNet raw) ≤ 127.99609375) ∧
  (∀ raw : Word16, raw ≠ 0#16 → f64Class (kphNet raw) = .normal) ∧
  (∀ raw : Word16, kphNet raw = 0x0000000000000000#64 ↔ raw = 0#16) ∧
  (∀ raw : Word16, raw ≠ 0#16 → 1015 ≤ f64Exp (kphNet raw) ∧ f64Exp (kphNet raw) ≤ 1030) ∧
  (∀ raw : Word16, f64Frac (kphNet raw) % 2 ^ 37 = 0)

/-- Tier 2. The comparator in integers, and that it never fires (42_range.md R92): `over` is 1 exactly when
`raw × 2^37 > 8831136656808477`, that is `raw ≥ 64255`, which no 16-bit signed value reaches; and no integer gives exactly
250.996 km/h.
The spec marks 42_range.md R92 as derived, an inference of its own. -/
def Obligations.TheCeilingIsNeverExceeded : Prop :=
  (∀ raw : Word16, (overNet (kphNet raw) = true ↔ 8831136656808477 < sint16 raw * 2 ^ 37) ∧
    (8831136656808477 < sint16 raw * 2 ^ 37 ↔ 64255 ≤ sint16 raw)) ∧
  (∀ s t : State, step s = .next t → t.nets.isOver = false) ∧
  (∀ z : Int, (z : ℚ) / 256 ≠ 250.996)

/-- Tier 2. The integer procedure gives `mph_full` bit for bit for every `raw`; `L` is 53 to 68, and 68 exactly from `|raw|` = 26368
on; `sh` is at most 15, the carry out of rounding never happens, and the exponent field is 1014 to 1029 (43_convert.md R102).
The spec marks 43_convert.md R102 as derived, an inference of its own. -/
def Obligations.IntegerProcedureGivesMphFull : Prop :=
  ∀ raw : Word16,
    mphFullNet (kphNet raw) = mphFullProcedure raw ∧
    (raw ≠ 0#16 →
      53 ≤ bitLength (productOf (rawMagnitude raw)) ∧ bitLength (productOf (rawMagnitude raw)) ≤ 68 ∧
      (bitLength (productOf (rawMagnitude raw)) = 68 ↔ 26368 ≤ rawMagnitude raw) ∧
      shiftOf (rawMagnitude raw) ≤ 15 ∧
      2 ^ 52 ≤ roundShift (productOf (rawMagnitude raw)) (shiftOf (rawMagnitude raw)) ∧
      roundShift (productOf (rawMagnitude raw)) (shiftOf (rawMagnitude raw)) < 2 ^ 53 ∧
      1014 ≤ f64Exp (mphFullNet (kphNet raw)) ∧ f64Exp (mphFullNet (kphNet raw)) ≤ 1029)

/-- Tier 2. Which products are exact and which are ties (43_convert.md R103): writing `|raw| = a × 2^k` with `a` odd, exact when `a`
is 1, 3 or 5 (42 values), a tie when `a` is 7, 9 or 11 (37 values), neither for the 32688 others; `C` is 4 times an odd 51-bit
number; the tie at 7 goes down and the tie at 9 up. -/
def Obligations.ExactAndTieProducts : Prop :=
  (mphSignificand % 8 = 4 ∧ bitLength (mphSignificand / 4) = 51) ∧
  (∀ a k : Nat, a % 2 = 1 → a * 2 ^ k ≤ 32767 →
    (ExactProduct (a * 2 ^ k) ↔ a = 1 ∨ a = 3 ∨ a = 5) ∧
    (TieProduct (a * 2 ^ k) ↔ a = 7 ∨ a = 9 ∨ a = 11)) ∧
  ((List.range 32768).filter fun n => 0 < n ∧ ExactProduct n).length = 42 ∧
  ((List.range 32768).filter fun n => TieProduct n) =
    [7, 9, 11, 14, 18, 22, 28, 36, 44, 56, 72, 88, 112, 144, 176, 224, 288, 352, 448, 576, 704, 896, 1152, 1408, 1792,
     2304, 2816, 3584, 4608, 5632, 7168, 9216, 11264, 14336, 18432, 22528, 28672] ∧
  ((List.range 32768).filter fun n => 0 < n ∧ ¬ ExactProduct n ∧ ¬ TieProduct n).length = 32688 ∧
  (remainderOf 7 = 4 ∧ shiftOf 7 = 3 ∧ mphFullNet (kphNet 7#16) = 0x3F9165FD1F7AEF8A#64) ∧
  (remainderOf 9 = 4 ∧ shiftOf 9 = 3 ∧ mphFullNet (kphNet 9#16) = 0x3F965E8E9630588E#64)

/-- Tier 2. The range of `mph_full` and of `mph` (43_convert.md R105): +0 exactly for raw 0, else a normal number with the sign of
`raw`; strictly increasing over the 65536 values; for an accepted raw from 0 to `0x4053E21E1649EE61`, never `ABSENT_BITS`; and the
bound `250.996 × 0.6213712` in decimal and as binary64 product.
The spec marks 43_convert.md R105 as derived, an inference of its own. -/
def Obligations.RangeOfMphFull : Prop :=
  (∀ raw : Word16, mphFullNet (kphNet raw) = 0x0000000000000000#64 ↔ raw = 0#16) ∧
  (∀ raw : Word16, raw ≠ 0#16 → f64Class (mphFullNet (kphNet raw)) = .normal ∧
    (f64Sign (mphFullNet (kphNet raw)) = true ↔ sint16 raw < 0)) ∧
  (∀ raw raw' : Word16, sint16 raw < sint16 raw' →
    f64Val (mphFullNet (kphNet raw)) < f64Val (mphFullNet (kphNet raw'))) ∧
  (∀ s t : State, step s = .next t → t.nets.valid = true →
    0 ≤ f64Val t.nets.mphFull ∧ f64Val t.nets.mphFull ≤ f64Val 0x4053E21E1649EE61#64 ∧
    t.nets.mphFull ≠ Config.absentBits ∧ t.mph = t.nets.mphFull) ∧
  mphFullNet (kphNet 0x7FFF#16) = 0x4053E21E1649EE61#64 ∧
  f64Val 0x4053E21E1649EE61#64 = 79.5330863687500055903001339174807071685791015625 ∧
  mphBound = 155.9616857152 ∧
  mphFullNet Config.kphMax = 0x40637EC6211EFA10#64 ∧
  f64Val 0x40637EC6211EFA10#64 = 155.96168571520001933095045387744903564453125

/-! ### The whole operation -/

/-- Tier 2. Which results are present (42_range.md R96, 30_encoding.md R56): those of messages of at least 3 bytes whose raw is 0 to
32767, that is whose `msg_data[23]` is 0, that is whose `kph` is 0 to 127.99609375.
The spec marks 42_range.md R96 as derived, an inference of its own. -/
def Obligations.PresentExactlyForNonNegativeRaw : Prop :=
  ∀ s t : State, step s = .next t →
    (t.present = true ↔ 3 ≤ s.msgLen.toNat ∧ s.msgData.getLsbD 23 = false) ∧
    (t.present = true ↔ 3 ≤ s.msgLen.toNat ∧ 0 ≤ sint16 t.nets.raw ∧ sint16 t.nets.raw ≤ 32767) ∧
    (t.present = true ↔ 3 ≤ s.msgLen.toNat ∧ 0 ≤ f64Val t.nets.kph ∧ f64Val t.nets.kph ≤ 127.99609375)

/-- Tier 3. The range invariant, from every state (44_decode.md R113): a step leaves a settled state (nothing held but the ports, the
outputs DECODE of the inputs) whose present speed is a finite
number in [0, 250.996 × 0.6213712], at most 79.533… and that only for raw 32767, and whose absent result shows `ABSENT_BITS`.
Nothing is asked of the state before, so the invariant `Settled ∧ SafeOutputs` is kept by every step.
The spec marks 44_decode.md R113 as derived, an inference of its own. -/
def Obligations.StepEstablishesTheRangeInvariant : Prop :=
  ∀ s t : State, step s = .next t →
    Settled t ∧ SafeOutputs t ∧
    (t.present = true →
      f64Val t.mph ≤ 79.5330863687500055903001339174807071685791015625 ∧
      (t.mph = 0x4053E21E1649EE61#64 ↔ sint16 t.nets.raw = 32767))

/-- Tier 2. A settled state is fixed: one more evaluation of the same inputs, and each stage by itself, leaves every port and net as
it is (44_decode.md R112, 30_encoding.md R59: a stage always acts). What a stage does alone is the model's choice (log 6). -/
def Obligations.SettledStateIsFixed : Prop :=
  ∀ s : State, Settled s → step s = .next s ∧ ∀ i ∈ stagesInOrder, exec i s = .next s

/-- Tier 1. The machine before the host has presented anything is settled and safe, and shows absence: DECODE of all-zero inputs.
The all-zero inputs are the model's choice (log 2); what they give is 70_reset_and_hazards.md R141. -/
def Obligations.ResetIsSettledAndAbsent : Prop :=
  Settled State.reset ∧ SafeOutputs State.reset ∧ State.reset.outputs = ⟨false, 0x7FF8000000000000#64⟩ ∧
  ∀ s t : State, step (s.drive ⟨0#4, 0#64⟩) = .next t → t.outputs = ⟨false, 0x7FF8000000000000#64⟩

/-- Tier 2. Totality (44_decode.md R111): every step, and every operation on every state, answers a next state, and only one; none
faults and none is refused. -/
def Obligations.EveryEvaluationAnswers : Prop :=
  (∀ s : State, ∃ t, step s = .next t ∧ ∀ u, step s = .next u → u = t) ∧
  (∀ (i : Instr) (s : State), ∃ t, exec i s = .next t) ∧
  (∀ (s : State) (r : Fault), step s ≠ .fault r) ∧
  (∀ (s : State) (r : Refusal), step s ≠ .refused r)

/-- Tier 2. Purity (44_decode.md R112): from states whose input ports agree, whatever their nets and outputs, a step gives the same
state; evaluating again gives the same again; and the inputs stand unchanged. -/
def Obligations.ResultDependsOnPresentInputsAlone : Prop :=
  (∀ s s' t t' : State, s.inputs = s'.inputs → step s = .next t → step s' = .next t' → t = t') ∧
  (∀ s t : State, step s = .next t → step t = .next t ∧ t.inputs = s.inputs)

/-- Tier 1. Nothing is kept, and the outputs follow the inputs at once (10_state.md R10 and R19, 20_memory.md R41): whatever the state
before, once the host drives the input ports both outputs and all nets are DECODE of what it drives and nothing else is held; the
state is the same from every state before, and one evaluation leaves it as it is. The settling time is left out (log 15). -/
def Obligations.OutputsFollowTheInputs : Prop :=
  ∀ (s : State) (p : InputPorts),
    (s.drive p).inputs = p ∧ (s.drive p).outputs = evalOutputs p.msgLen p.msgData ∧
    (s.drive p).nets = evalNets p.msgLen p.msgData ∧ Settled (s.drive p) ∧
    (∀ s' : State, s'.drive p = s.drive p) ∧
    step (s.drive p) = .next (s.drive p)

/-- Tier 2. The state after a step is that of its input ports and of nothing else (10_state.md R10, 70_reset_and_hazards.md R146): it
is the state the host gets by driving those inputs, on any machine, State.reset included. -/
def Obligations.StepHoldsNothingButTheInputs : Prop :=
  ∀ s : State, step s = .next (State.reset.drive s.inputs) ∧ ∀ t, step s = .next t → t.probe = none ∧ Settled t

/-- Tier 2. The model's own field holds net values only where they differ from those of the input ports (log 1): State.reset, every
step and every operation, from every state of that form, keep this form, so that states with the same ports and nets are equal. -/
def Obligations.NetsAreHeldOnlyWhenForeign : Prop :=
  NetsCanonical State.reset ∧
  (∀ (s : State) (p : InputPorts), NetsCanonical (s.drive p)) ∧
  (∀ (i : Instr) (s t : State), NetsCanonical s → exec i s = .next t → NetsCanonical t) ∧
  (∀ s t : State, step s = .next t → NetsCanonical t) ∧
  (∀ s t : State, NetsCanonical s → NetsCanonical t → s.inputs = t.inputs → s.outputs = t.outputs → s.nets = t.nets → s = t)

/-- Tier 1. The encoding of the result (30_encoding.md R54): absent shows the positive quiet NaN without payload, and `ABSENT_BITS`
never stands with `present` = 1. -/
def Obligations.EncodingOfTheResult : Prop :=
  (f64Sign Config.absentBits = false ∧ f64Exp Config.absentBits = 2047 ∧ f64Frac Config.absentBits = 0x8000000000000 ∧
    f64IsQuietNan Config.absentBits = true ∧ Config.absentBits = 0x7FF8000000000000#64) ∧
  ∀ s t : State, step s = .next t →
    (t.present = false → t.mph = Config.absentBits) ∧ (t.present = true → t.mph ≠ Config.absentBits)

/-- Tier 2. The value equation (44_decode.md R115): for a message of at least 3 bytes with raw 0 to 32767, `mph` is the correctly
rounded binary64 product of the exact quotient `raw / 256` and the constant; for a signal of 32768 or more, read unsigned, the
result is absent.
The spec marks 44_decode.md R115 as derived, an inference of its own. -/
def Obligations.ValueEquationHoldsExactly : Prop :=
  ∀ s t : State, step s = .next t → 3 ≤ s.msgLen.toNat →
    (0 ≤ sint16 t.nets.raw → t.present = true ∧ f64Val t.nets.kph = (sint16 t.nets.raw : ℚ) / 256 ∧
      IsNearestEven (f64Val t.nets.kph * f64Val Config.mphPerKph) t.mph ∧
      (sint16 t.nets.raw = 0 → t.mph = 0x0000000000000000#64)) ∧
    (32768 ≤ t.nets.rawU.toNat → t.outputs = ⟨false, 0x7FF8000000000000#64⟩)

/-- Tier 2. The ports show the document's function on byte lists, for every `MSG_MAX` of at least 3 and the `LEN_W` that follows from
it (44_decode.md R114): the lanes of the message carry the list (its first `MSG_MAX` bytes), the others anything, and the length is
the list's, or anything of at least 3 for a longer list. The function depends only on whether there are 3 bytes and on bytes 1 and 2.
The spec marks 44_decode.md R114 as derived, an inference of its own. -/
def Obligations.PortsShowTheListFunction : Prop :=
  (∀ (M : Nat) (L : List Byte) (len : BitVec (Nat.clog 2 (M + 1))) (data : BitVec (8 * M)), 3 ≤ M →
    LanesCarry data (L.take M) → (L.length ≤ M → len.toNat = L.length) → (M < L.length → 3 ≤ len.toNat) →
    evalOutputs len data = encodeResult (decodeList L)) ∧
  (∀ L L' : List Byte, (L.length < 3 ↔ L'.length < 3) → L[1]? = L'[1]? → L[2]? = L'[2]? → decodeList L = decodeList L') ∧
  (∀ L : List Byte, L.length < 3 → decodeList L = none)

/-- Tier 2. A message of any length that the host presents is decoded as the document's function says (30_encoding.md R57). How a
message longer than 8 bytes is put on the ports is the model's choice among those R57 allows (log 22).
The document's function on lists is that of 44_decode.md R114, which the spec marks as derived, an inference of its own. -/
def Obligations.PresentedMessageIsDecoded : Prop :=
  ∀ (s : State) (L : List Byte), ∃ t, step (s.presentMessage L) = .next t ∧ t.outputs = encodeResult (decodeList L)

/-! ### Error conditions and runs -/

/-- Tier 2. The error conditions (60_exceptions.md R121, R122, R124): a result is absent exactly when one of them holds; each cause as
the ports show it; WrongInputType and OutOfRange never; the single named cause follows the document's order; and no two absent
results can be told apart. -/
def Obligations.ErrorConditionsEndInAbsence : Prop :=
  (∀ s t : State, step s = .next t →
    (t.present = false ↔ ∃ k : ErrorKind, k.holds t.nets = true) ∧
    (ErrorKind.holds .inputTooShort t.nets = true ↔ s.msgLen.toNat < 3) ∧
    (ErrorKind.holds .unavailable t.nets = true ↔ 3 ≤ s.msgLen.toNat ∧ t.nets.rawU.toNat = 0xFFFF) ∧
    (ErrorKind.holds .negativeRaw t.nets = true ↔ 3 ≤ s.msgLen.toNat ∧ 0x8000 ≤ t.nets.rawU.toNat) ∧
    ErrorKind.holds .outOfRange t.nets = false ∧ ErrorKind.holds .wrongInputType t.nets = false ∧
    errorCause t.nets =
      (if s.msgLen.toNat < 3 then some .inputTooShort
       else if t.nets.rawU.toNat = 0xFFFF then some .unavailable
       else if 0x8000 ≤ t.nets.rawU.toNat then some .negativeRaw
       else none)) ∧
  (∀ s s' t t' : State, step s = .next t → step s' = .next t' → t.present = false → t'.present = false →
    t.outputs = t'.outputs ∧ t.outputs = ⟨false, 0x7FF8000000000000#64⟩)

/-- Tier 1. An error condition leaves no mark (60_exceptions.md R126): after any run, whatever absent results it holds, an
evaluation ends in exactly the state it would have ended in had the block never seen those inputs.
The spec marks 60_exceptions.md R126 as derived, an inference of its own. -/
def Obligations.EarlierResultsLeaveNoMark : Prop :=
  ∀ (s t : State) (ps : List InputPorts) (outs : List OutputPorts) (q : InputPorts),
    runEvaluations s ps = .next (t, outs) → evaluate t q = evaluate s q

/-- Tier 2. A run is the list of the individual results, in order, each depending only on its own input (70_reset_and_hazards.md
R146); it completes for every list of inputs, from every state. -/
def Obligations.RunIsTheListOfResults : Prop :=
  ∀ (s : State) (ps : List InputPorts),
    ∃ u, runEvaluations s ps = .next (u, ps.map fun p => evalOutputs p.msgLen p.msgData) ∧
      ∀ p, ps.getLast? = some p → u.inputs = p ∧ Settled u
end

