-- ==== Sys2Proof/Laws/Float.lean ====
section
/-! SUPPORT. The fields of a packed pattern, the number of bits of an integer, and the rounding shift. -/

namespace Sys2Proof.Machine

theorem bitLength_pos {N : Nat} (h : N ≠ 0) : 0 < bitLength N := by
  simp [bitLength, h]

theorem lt_two_pow_bitLength (N : Nat) : N < 2 ^ bitLength N := by
  unfold bitLength
  split
  · simp_all
  · exact Nat.lt_log2_self

theorem two_pow_bitLength_le {N : Nat} (h : N ≠ 0) : 2 ^ (bitLength N - 1) ≤ N := by
  simpa [bitLength, h] using Nat.log2_self_le h

/-- The number of bits is the only exponent between which and the one below `N` lies. -/
theorem bitLength_eq {N L : Nat} (h1 : 2 ^ L ≤ N) (h2 : N < 2 ^ (L + 1)) : bitLength N = L + 1 := by
  have h0 : N ≠ 0 := by
    have := Nat.two_pow_pos L
    omega
  have h3 : N.log2 = L := (Nat.log2_eq_iff h0).2 ⟨h1, h2⟩
  simp [bitLength, h0, h3]

theorem f64Exp_eq (b : F64) : f64Exp b = b.toNat / 2 ^ 52 % 2048 := by
  simp [f64Exp, Nat.shiftRight_eq_div_pow]

theorem f64Frac_eq (b : F64) : f64Frac b = b.toNat % 2 ^ 52 := by
  simp [f64Frac]

theorem f64Sign_eq (b : F64) : f64Sign b = decide (2 ^ 63 ≤ b.toNat) := by
  have h : f64Sign b = b.msb := by simp [f64Sign, BitVec.msb_eq_getLsbD_last]
  rw [h, BitVec.msb_eq_decide]

/-- The number of a pattern built from its sign and its 63 low bits. -/
theorem toNat_low (s : Bool) {m : Nat} (h : m < 2 ^ 63) :
    (BitVec.ofBool s ++ BitVec.ofNat 63 m).toNat = (if s then 2 ^ 63 else 0) + m := by
  simp only [BitVec.toNat_append, BitVec.toNat_ofNat, Nat.mod_eq_of_lt h, Nat.shiftLeft_eq]
  have := Nat.two_pow_add_eq_or_of_lt h (BitVec.ofBool s).toNat
  rw [Nat.mul_comm, ← this]
  cases s <;> rfl

/-- A pattern built from its sign and its 63 low bits: the sign. -/
theorem f64Sign_low (s : Bool) {m : Nat} (h : m < 2 ^ 63) :
    f64Sign (BitVec.ofBool s ++ BitVec.ofNat 63 m) = s := by
  have e := toNat_low s h
  cases s
  · rw [f64Sign_eq, e]; simp; exact h
  · rw [f64Sign_eq, e]; simp

/-- A pattern built from its sign and its 63 low bits: the exponent field is what stands from bit 52 on. -/
theorem f64Exp_low (s : Bool) {m : Nat} (h : m < 2 ^ 63) :
    f64Exp (BitVec.ofBool s ++ BitVec.ofNat 63 m) = m / 2 ^ 52 := by
  have e := toNat_low s h
  rw [f64Exp_eq, e]
  cases s <;> simp <;> omega

/-- A pattern built from its sign and its 63 low bits: the fraction field is what stands below bit 52. -/
theorem f64Frac_low (s : Bool) {m : Nat} (h : m < 2 ^ 63) :
    f64Frac (BitVec.ofBool s ++ BitVec.ofNat 63 m) = m % 2 ^ 52 := by
  have e := toNat_low s h
  rw [f64Frac_eq, e]
  cases s
  · simp
  · simp; omega

/-- A packed pattern is its sign and its 63 low bits. -/
theorem f64Pack_eq_low (s : Bool) {e f : Nat} (he : e < 2048) (hf : f < 2 ^ 52) :
    f64Pack s e f = BitVec.ofBool s ++ BitVec.ofNat 63 (e * 2 ^ 52 + f) := by
  apply BitVec.eq_of_toNat_eq
  rw [toNat_low s (by omega)]
  have h1 := Nat.two_pow_add_eq_or_of_lt (by omega : e < 2 ^ 11) (BitVec.ofBool s).toNat
  have h2 := Nat.two_pow_add_eq_or_of_lt hf ((BitVec.ofBool s).toNat * 2 ^ 11 + e)
  simp only [f64Pack, BitVec.toNat_append, BitVec.toNat_ofNat, Nat.shiftLeft_eq,
    Nat.mod_eq_of_lt (by omega : e < 2 ^ 11), Nat.mod_eq_of_lt hf]
  rw [Nat.mul_comm (BitVec.ofBool s).toNat, ← h1, Nat.mul_comm (2 ^ 11), Nat.mul_comm _ (2 ^ 52), ← h2]
  have hb : (BitVec.ofBool s).toNat = if s then 1 else 0 := by cases s <;> rfl
  rw [hb]
  cases s
  · rw [if_neg Bool.false_ne_true, if_neg Bool.false_ne_true]; ring
  · rw [if_pos rfl, if_pos rfl]; ring

theorem f64Sign_pack (s : Bool) {e f : Nat} (he : e < 2048) (hf : f < 2 ^ 52) : f64Sign (f64Pack s e f) = s := by
  rw [f64Pack_eq_low s he hf, f64Sign_low s (by omega)]

theorem f64Exp_pack (s : Bool) {e f : Nat} (he : e < 2048) (hf : f < 2 ^ 52) : f64Exp (f64Pack s e f) = e := by
  rw [f64Pack_eq_low s he hf, f64Exp_low s (by omega)]
  omega

theorem f64Frac_pack (s : Bool) {e f : Nat} (he : e < 2048) (hf : f < 2 ^ 52) : f64Frac (f64Pack s e f) = f := by
  rw [f64Pack_eq_low s he hf, f64Frac_low s (by omega)]
  omega

/-- The value of a packed normal pattern (30_encoding.md R53). -/
theorem f64Val_pack (s : Bool) {e f : Nat} (h0 : e ≠ 0) (he : e < 2047) (hf : f < 2 ^ 52) :
    f64Val (f64Pack s e f) = (if s then -1 else 1) * ((2 ^ 52 + f : Nat) : ℚ) * 2 ^ ((e : Int) - 1075) := by
  simp only [f64Val, f64Significand, f64Unit, f64Sign_pack s (by omega : e < 2048) hf,
    f64Exp_pack s (by omega : e < 2048) hf, f64Frac_pack s (by omega : e < 2048) hf, if_neg h0]

/-- The value of a pattern built from its sign and its 63 low bits, when these are a significand on top of an exponent above
1: `(u × 2^52 + q)` stands for `q × 2^(u − 1074)`, with `q` from `2^52` up to and including `2^53`, below the infinities. -/
theorem f64Val_low (s : Bool) {u q : Nat} (h1 : 2 ^ 52 ≤ q) (h2 : q ≤ 2 ^ 53)
    (hu : u * 2 ^ 52 + q < 2047 * 2 ^ 52) :
    f64Val (BitVec.ofBool s ++ BitVec.ofNat 63 (u * 2 ^ 52 + q)) =
      (if s then -1 else 1) * (q : ℚ) * 2 ^ ((u : Int) - 1074) := by
  have hm : u * 2 ^ 52 + q < 2 ^ 63 := by omega
  simp only [f64Val, f64Significand, f64Unit, f64Sign_low s hm, f64Exp_low s hm, f64Frac_low s hm]
  have hne : (u * 2 ^ 52 + q) / 2 ^ 52 ≠ 0 := by omega
  rw [if_neg hne, if_neg hne, mul_assoc, mul_assoc]
  congr 1
  rcases Nat.lt_or_ge q (2 ^ 53) with hq | hq
  · have e1 : (u * 2 ^ 52 + q) / 2 ^ 52 = u + 1 := by omega
    have e2 : 2 ^ 52 + (u * 2 ^ 52 + q) % 2 ^ 52 = q := by omega
    rw [e1, e2]
    congr 2
    push_cast
    ring
  · have hq' : q = 2 ^ 53 := by omega
    have e1 : (u * 2 ^ 52 + q) / 2 ^ 52 = u + 2 := by omega
    have e2 : 2 ^ 52 + (u * 2 ^ 52 + q) % 2 ^ 52 = 2 ^ 52 := by omega
    rw [e1, e2, hq']
    have e3 : (((u + 2 : Nat) : Int) - 1075) = ((u : Int) - 1074) + 1 := by push_cast; ring
    rw [e3, zpow_add₀ (by norm_num : (2 : ℚ) ≠ 0)]
    push_cast
    ring

/-- All that the rounding shift can do: an integer nearest to `N ÷ 2^sh`, and an even one when two are equally near. -/
theorem roundShift_nearest (N sh : Nat) :
    2 * N ≤ (2 * roundShift N sh + 1) * 2 ^ sh ∧ 2 * roundShift N sh * 2 ^ sh ≤ 2 * N + 2 ^ sh ∧
      ((2 * N = (2 * roundShift N sh + 1) * 2 ^ sh ∨ 2 * roundShift N sh * 2 ^ sh = 2 * N + 2 ^ sh) →
        roundShift N sh % 2 = 0) := by
  have hdm := Nat.div_add_mod N (2 ^ sh)
  have hlt := Nat.mod_lt N (Nat.two_pow_pos sh)
  unfold roundShift
  rw [Nat.shiftRight_eq_div_pow]
  generalize N / 2 ^ sh = q at *
  generalize N % 2 ^ sh = r at *
  rcases Nat.eq_zero_or_pos sh with rfl | hsh
  · simp at *
    omega
  · obtain ⟨k, rfl⟩ : ∃ k, sh = k + 1 := ⟨sh - 1, by omega⟩
    simp only [Nat.add_sub_cancel, hsh, true_and, pow_succ] at *
    generalize 2 ^ k = w at *
    have hN : N = q * (2 * w) + r := by rw [← hdm]; ring
    split
    · rename_i hc
      have hr : w ≤ r := by rcases hc with hc | hc <;> omega
      refine ⟨by nlinarith, by nlinarith, ?_⟩
      rintro (h | h)
      · exfalso; nlinarith
      · rcases hc with hc | ⟨hc, hq⟩
        · exfalso; nlinarith
        · omega
    · rename_i hc
      simp only [not_or, not_lt, not_and] at hc
      refine ⟨by nlinarith [hc.1], by nlinarith, ?_⟩
      rintro (h | h)
      · have : r = w := by nlinarith
        have := hc.2 this
        omega
      · exfalso; nlinarith

end Sys2Proof.Machine
end

