-- ==== Sys2Proof/Laws/State.lean ====
section
/-! SUPPORT. One lemma per field and update of State, so that no later proof unfolds a record update. -/

namespace Sys2Proof.Machine

/-! ### The state of an input -/

@[simp] theorem State.ofInputs_msgLen (p : InputPorts) : (State.ofInputs p).msgLen = p.msgLen := rfl
@[simp] theorem State.ofInputs_msgData (p : InputPorts) : (State.ofInputs p).msgData = p.msgData := rfl
@[simp] theorem State.ofInputs_present (p : InputPorts) : (State.ofInputs p).present = (evalOutputs p.msgLen p.msgData).present := rfl
@[simp] theorem State.ofInputs_mph (p : InputPorts) : (State.ofInputs p).mph = (evalOutputs p.msgLen p.msgData).mph := rfl
@[simp] theorem State.ofInputs_probe (p : InputPorts) : (State.ofInputs p).probe = none := rfl
@[simp] theorem State.ofInputs_nets (p : InputPorts) : (State.ofInputs p).nets = evalNets p.msgLen p.msgData := rfl
@[simp] theorem State.ofInputs_outputs (p : InputPorts) : (State.ofInputs p).outputs = evalOutputs p.msgLen p.msgData := rfl
@[simp] theorem State.ofInputs_inputs (p : InputPorts) : (State.ofInputs p).inputs = p := rfl
@[simp] theorem State.drive_eq (s : State) (p : InputPorts) : s.drive p = State.ofInputs p := rfl

/-! ### The nets -/

@[simp] theorem State.setNets_msgLen (s : State) (n : Nets) : (s.setNets n).msgLen = s.msgLen := rfl
@[simp] theorem State.setNets_msgData (s : State) (n : Nets) : (s.setNets n).msgData = s.msgData := rfl
@[simp] theorem State.setNets_present (s : State) (n : Nets) : (s.setNets n).present = s.present := rfl
@[simp] theorem State.setNets_mph (s : State) (n : Nets) : (s.setNets n).mph = s.mph := rfl
@[simp] theorem State.setNets_probe (s : State) (n : Nets) :
    (s.setNets n).probe = if n = evalNets s.msgLen s.msgData then none else some n := rfl

/-- The nets read as they were written, whether or not they are those of the input ports. -/
@[simp] theorem State.setNets_nets (s : State) (n : Nets) : (s.setNets n).nets = n := by
  unfold State.nets
  rw [setNets_probe]
  split
  · next h => exact h.symm
  · rfl

/-- Without net values of its own a state has those of its input ports (10_state.md R10). -/
theorem State.nets_of_probe {s : State} (h : s.probe = none) : s.nets = evalNets s.msgLen s.msgData := by
  rw [State.nets, h]
  rfl

@[simp] theorem State.setLenOk_msgLen (s : State) (v : Bool) : (s.setLenOk v).msgLen = s.msgLen := rfl
@[simp] theorem State.setLenOk_msgData (s : State) (v : Bool) : (s.setLenOk v).msgData = s.msgData := rfl
@[simp] theorem State.setLenOk_present (s : State) (v : Bool) : (s.setLenOk v).present = s.present := rfl
@[simp] theorem State.setLenOk_mph (s : State) (v : Bool) : (s.setLenOk v).mph = s.mph := rfl
@[simp] theorem State.setLenOk_nets (s : State) (v : Bool) :
    (s.setLenOk v).nets = { s.nets with lenOk := v } := State.setNets_nets s _
@[simp] theorem State.setBytes_msgLen (s : State) (x y : Byte) : (s.setBytes x y).msgLen = s.msgLen := rfl
@[simp] theorem State.setBytes_msgData (s : State) (x y : Byte) : (s.setBytes x y).msgData = s.msgData := rfl
@[simp] theorem State.setBytes_present (s : State) (x y : Byte) : (s.setBytes x y).present = s.present := rfl
@[simp] theorem State.setBytes_mph (s : State) (x y : Byte) : (s.setBytes x y).mph = s.mph := rfl
@[simp] theorem State.setBytes_nets (s : State) (x y : Byte) :
    (s.setBytes x y).nets = { s.nets with b1 := x, b2 := y } := State.setNets_nets s _
@[simp] theorem State.setRaw_msgLen (s : State) (x y : Word16) : (s.setRaw x y).msgLen = s.msgLen := rfl
@[simp] theorem State.setRaw_msgData (s : State) (x y : Word16) : (s.setRaw x y).msgData = s.msgData := rfl
@[simp] theorem State.setRaw_present (s : State) (x y : Word16) : (s.setRaw x y).present = s.present := rfl
@[simp] theorem State.setRaw_mph (s : State) (x y : Word16) : (s.setRaw x y).mph = s.mph := rfl
@[simp] theorem State.setRaw_nets (s : State) (x y : Word16) :
    (s.setRaw x y).nets = { s.nets with rawU := x, raw := y } := State.setNets_nets s _
@[simp] theorem State.setKph_msgLen (s : State) (v : F64) : (s.setKph v).msgLen = s.msgLen := rfl
@[simp] theorem State.setKph_msgData (s : State) (v : F64) : (s.setKph v).msgData = s.msgData := rfl
@[simp] theorem State.setKph_present (s : State) (v : F64) : (s.setKph v).present = s.present := rfl
@[simp] theorem State.setKph_mph (s : State) (v : F64) : (s.setKph v).mph = s.mph := rfl
@[simp] theorem State.setKph_nets (s : State) (v : F64) :
    (s.setKph v).nets = { s.nets with kph := v } := State.setNets_nets s _
@[simp] theorem State.setRange_msgLen (s : State) (o n t v : Bool) : (s.setRange o n t v).msgLen = s.msgLen := rfl
@[simp] theorem State.setRange_msgData (s : State) (o n t v : Bool) : (s.setRange o n t v).msgData = s.msgData := rfl
@[simp] theorem State.setRange_present (s : State) (o n t v : Bool) : (s.setRange o n t v).present = s.present := rfl
@[simp] theorem State.setRange_mph (s : State) (o n t v : Bool) : (s.setRange o n t v).mph = s.mph := rfl
@[simp] theorem State.setRange_nets (s : State) (o n t v : Bool) :
    (s.setRange o n t v).nets = { s.nets with isOver := o, neg := n, sentinel := t, valid := v } := State.setNets_nets s _
@[simp] theorem State.setMphFull_msgLen (s : State) (v : F64) : (s.setMphFull v).msgLen = s.msgLen := rfl
@[simp] theorem State.setMphFull_msgData (s : State) (v : F64) : (s.setMphFull v).msgData = s.msgData := rfl
@[simp] theorem State.setMphFull_present (s : State) (v : F64) : (s.setMphFull v).present = s.present := rfl
@[simp] theorem State.setMphFull_mph (s : State) (v : F64) : (s.setMphFull v).mph = s.mph := rfl
@[simp] theorem State.setMphFull_nets (s : State) (v : F64) :
    (s.setMphFull v).nets = { s.nets with mphFull := v } := State.setNets_nets s _

/-! ### The output ports -/

@[simp] theorem State.setOutputs_msgLen (s : State) (o : OutputPorts) : (s.setOutputs o).msgLen = s.msgLen := rfl
@[simp] theorem State.setOutputs_msgData (s : State) (o : OutputPorts) : (s.setOutputs o).msgData = s.msgData := rfl
@[simp] theorem State.setOutputs_present (s : State) (o : OutputPorts) : (s.setOutputs o).present = o.present := rfl
@[simp] theorem State.setOutputs_mph (s : State) (o : OutputPorts) : (s.setOutputs o).mph = o.mph := rfl
@[simp] theorem State.setOutputs_nets (s : State) (o : OutputPorts) : (s.setOutputs o).nets = s.nets := rfl
@[simp] theorem State.setOutputs_probe (s : State) (o : OutputPorts) : (s.setOutputs o).probe = s.probe := rfl
@[simp] theorem State.setOutputs_outputs (s : State) (o : OutputPorts) : (s.setOutputs o).outputs = o := rfl
@[simp] theorem State.takeAbsence_msgLen (s : State) : s.takeAbsence.msgLen = s.msgLen := rfl
@[simp] theorem State.takeAbsence_msgData (s : State) : s.takeAbsence.msgData = s.msgData := rfl
@[simp] theorem State.takeAbsence_present (s : State) : s.takeAbsence.present = false := rfl
@[simp] theorem State.takeAbsence_mph (s : State) : s.takeAbsence.mph = Config.absentBits := rfl
@[simp] theorem State.takeAbsence_nets (s : State) : s.takeAbsence.nets = s.nets := rfl
@[simp] theorem State.takeAbsence_probe (s : State) : s.takeAbsence.probe = s.probe := rfl
@[simp] theorem State.presentSpeed_msgLen (s : State) (v : F64) : (s.presentSpeed v).msgLen = s.msgLen := rfl
@[simp] theorem State.presentSpeed_msgData (s : State) (v : F64) : (s.presentSpeed v).msgData = s.msgData := rfl
@[simp] theorem State.presentSpeed_present (s : State) (v : F64) : (s.presentSpeed v).present = true := rfl
@[simp] theorem State.presentSpeed_mph (s : State) (v : F64) : (s.presentSpeed v).mph = v := rfl
@[simp] theorem State.presentSpeed_nets (s : State) (v : F64) : (s.presentSpeed v).nets = s.nets := rfl
@[simp] theorem State.presentSpeed_probe (s : State) (v : F64) : (s.presentSpeed v).probe = s.probe := rfl

@[simp] theorem State.inputs_msgLen (s : State) : s.inputs.msgLen = s.msgLen := rfl
@[simp] theorem State.inputs_msgData (s : State) : s.inputs.msgData = s.msgData := rfl
@[simp] theorem State.outputs_present (s : State) : s.outputs.present = s.present := rfl
@[simp] theorem State.outputs_mph (s : State) : s.outputs.mph = s.mph := rfl
@[simp] theorem encodeResult_some (v : F64) : encodeResult (some v) = ⟨true, v⟩ := rfl
@[simp] theorem encodeResult_none : encodeResult none = ⟨false, Config.absentBits⟩ := rfl

end Sys2Proof.Machine
end

