-- ==== Sys2Proof/Laws/Words.lean ====
section
/-! SUPPORT. Lanes, the joined signal, the two's-complement reading, and the message as memory. -/

namespace Sys2Proof.Machine

theorem lane_getLsbD {dw : Nat} (d : BitVec dw) (i k : Nat) :
    (lane d i).getLsbD k = (decide (k < 8) && d.getLsbD (8 * i + k)) := by
  simp [lane]

theorem lane_zero_joinLanes (a b c : Byte) (r : BitVec Config.restW) : lane (joinLanes a b c r) 0 = a := by
  ext k hk
  simp [← BitVec.getLsbD_eq_getElem, lane_getLsbD, joinLanes, BitVec.getLsbD_append, hk]

theorem lane_one_joinLanes (a b c : Byte) (r : BitVec Config.restW) : lane (joinLanes a b c r) 1 = b := by
  ext k hk
  simp [← BitVec.getLsbD_eq_getElem, lane_getLsbD, joinLanes, BitVec.getLsbD_append, hk]

theorem lane_two_joinLanes (a b c : Byte) (r : BitVec Config.restW) : lane (joinLanes a b c r) 2 = c := by
  ext k hk
  have h8 : ¬ 16 + k < 8 := by omega
  have h16 : ¬ 16 + k - 8 < 8 := by omega
  have e : 16 + k - 8 - 8 = k := by omega
  simp [← BitVec.getLsbD_eq_getElem, lane_getLsbD, joinLanes, BitVec.getLsbD_append, hk, h8, h16, e]

theorem joinLanes_lanes (d : BitVec Config.dataW) :
    joinLanes (lane d 0) (lane d 1) (lane d 2) (d.extractLsb' 24 Config.restW) = d := by
  ext k hk
  simp only [← BitVec.getLsbD_eq_getElem, joinLanes, BitVec.getLsbD_append, lane, BitVec.getLsbD_extractLsb']
  by_cases h0 : k < 8
  · simp [h0]
  · by_cases h1 : k < 16
    · have : k - 8 < 8 := by omega
      have e : 8 + (k - 8) = k := by omega
      simp [h0, this, e]
    · by_cases h2 : k < 24
      · have a1 : ¬ k - 8 < 8 := by omega
        have a2 : k - 16 < 8 := by omega
        have e : 16 + (k - 16) = k := by omega
        have e' : k - 8 - 8 = k - 16 := by omega
        simp [h0, a1, a2, e, e']
      · have a1 : ¬ k - 8 < 8 := by omega
        have a2 : ¬ k - 16 < 8 := by omega
        have a3 : k - 24 < 40 := by simp only [Config.dataW] at hk; omega
        have e : 24 + (k - 24) = k := by omega
        have e' : k - 8 - 8 = k - 16 := by omega
        have e'' : k - 16 - 8 = k - 24 := by omega
        simp [h0, a1, a2, a3, e, e', e'']

theorem joinLittleEndian_toNat (b1 b2 : Byte) : (joinLittleEndian b1 b2).toNat = b1.toNat + 256 * b2.toNat := by
  have h1 := b1.isLt
  simp only [joinLittleEndian, BitVec.toNat_append, Nat.shiftLeft_eq]
  have h := Nat.two_pow_add_eq_or_of_lt h1 b2.toNat
  rw [Nat.mul_comm, ← h]
  omega

theorem sint16_eq_toInt (v : Word16) : sint16 v = v.toInt := by
  have h := v.isLt
  unfold sint16
  rw [BitVec.toInt_eq_msb_cond]
  have : v.msb = v.getLsbD 15 := by simp [BitVec.msb_eq_getLsbD_last]
  rw [this]
  split <;> simp

theorem sint16_bounds (v : Word16) : -32768 ≤ sint16 v ∧ sint16 v ≤ 32767 := by
  rw [sint16_eq_toInt]
  have h1 := BitVec.le_toInt v
  have h2 := BitVec.toInt_lt (x := v)
  norm_num at h1 h2
  omega

theorem sint16_neg_iff (v : Word16) : sint16 v < 0 ↔ v.getLsbD 15 = true := by
  have h := v.isLt
  unfold sint16
  split <;> simp_all

theorem rawMagnitude_le (v : Word16) : rawMagnitude v ≤ 32768 := by
  have := sint16_bounds v
  unfold rawMagnitude
  omega

theorem messageOf_wf {lw dw : Nat} (len : BitVec lw) (d : BitVec dw) : (messageOf len d).wf := by
  unfold messageOf Memory.wf
  rw [List.pairwise_map]
  exact List.pairwise_lt_range

theorem Memory.read_map_range (f : Nat → Byte) (n a : Nat) :
    Memory.read ((List.range n).map fun i => (i, f i)) a = if a < n then some (f a) else none := by
  have key : ∀ (l : List Nat), Memory.read (l.map fun i => (i, f i)) a = if a ∈ l then some (f a) else none := by
    intro l
    induction l with
    | nil => simp [Memory.read]
    | cons x l ih =>
      by_cases hx : x = a
      · subst hx; simp [Memory.read]
      · simp [Memory.read, hx, ih, Ne.symm hx]
  simpa using key (List.range n)

/-- All that reading the message can do: the lane of an index inside the message that a lane carries, else no value. -/
theorem memRead_eq (s : State) (a : Nat) :
    memRead s a = if a < min s.msgLen.toNat 8 then some (lane s.msgData a) else none :=
  Memory.read_map_range _ _ _

theorem memRead_congr {s t : State} (hl : t.msgLen = s.msgLen) (hd : t.msgData = s.msgData) (a : Nat) :
    memRead t a = memRead s a := by
  rw [memRead_eq, memRead_eq, hl, hd]

end Sys2Proof.Machine
end

