-- ==== Sys2Proof/Laws/Ops.lean ====
section
/-! SUPPORT. What the selection, the nets of an evaluation, the operations and the step can do, each said once. -/

namespace Sys2Proof.Machine

@[simp] theorem State.select_true (s : State) (v : F64) : s.select true v = s.presentSpeed v := rfl
@[simp] theorem State.select_false (s : State) (v : F64) : s.select false v = s.takeAbsence := rfl

@[simp] theorem State.select_msgLen (s : State) (b : Bool) (v : F64) : (s.select b v).msgLen = s.msgLen := by
  cases b <;> rfl
@[simp] theorem State.select_msgData (s : State) (b : Bool) (v : F64) : (s.select b v).msgData = s.msgData := by
  cases b <;> rfl
@[simp] theorem State.select_nets (s : State) (b : Bool) (v : F64) : (s.select b v).nets = s.nets := by
  cases b <;> rfl

/-- All that the selection can do to the output ports. -/
@[simp] theorem State.select_outputs (s : State) (b : Bool) (v : F64) :
    (s.select b v).outputs = encodeResult (if b then some v else none) := by
  cases b <;> rfl

theorem State.select_present (s : State) (b : Bool) (v : F64) : (s.select b v).present = b := by
  cases b <;> rfl

theorem State.select_mph (s : State) (b : Bool) (v : F64) :
    (s.select b v).mph = if b then v else Config.absentBits := by
  cases b <;> rfl

@[simp] theorem State.select_probe (s : State) (b : Bool) (v : F64) : (s.select b v).probe = s.probe := by
  cases b <;> rfl

/-- Two states with the same ports and the same net values of their own are the same state. -/
theorem State.ext_ports {s t : State} (hl : s.msgLen = t.msgLen) (hd : s.msgData = t.msgData) (hp : s.probe = t.probe)
    (ho : s.outputs = t.outputs) : s = t := by
  cases s
  cases t
  simp_all [State.outputs]

/-- Giving the nets the value the input ports give them leaves nothing held. -/
theorem State.setNets_evalNets (s : State) : s.setNets (evalNets s.msgLen s.msgData) = { s with probe := none } := by
  simp [State.setNets]

/-- A state that holds nothing but its ports stays as it is when its nets get the value they have. -/
theorem State.setNets_self {s : State} {n : Nets} (hp : s.probe = none) (hn : n = evalNets s.msgLen s.msgData) :
    s.setNets n = s := by
  rw [hn, State.setNets_evalNets, ← hp]

/-- The machine before the host has presented anything is the state of the all-zero inputs (70_reset_and_hazards.md R141). -/
theorem State.reset_eq : State.reset = State.ofInputs ⟨0#4, 0#64⟩ := by decide +kernel

section
variable {lw dw : Nat} (len : BitVec lw) (d : BitVec dw)

@[simp] theorem evalNets_lenOk : (evalNets len d).lenOk = lenOkNet len := rfl
@[simp] theorem evalNets_b1 : (evalNets len d).b1 = lane d 1 := rfl
@[simp] theorem evalNets_b2 : (evalNets len d).b2 = lane d 2 := rfl
@[simp] theorem evalNets_rawU : (evalNets len d).rawU = joinLittleEndian (lane d 1) (lane d 2) := rfl
@[simp] theorem evalNets_raw : (evalNets len d).raw = joinLittleEndian (lane d 1) (lane d 2) := rfl
@[simp] theorem evalNets_kph : (evalNets len d).kph = kphNet (joinLittleEndian (lane d 1) (lane d 2)) := rfl
@[simp] theorem evalNets_isOver :
    (evalNets len d).isOver = overNet (kphNet (joinLittleEndian (lane d 1) (lane d 2))) := rfl
@[simp] theorem evalNets_neg : (evalNets len d).neg = negNet (joinLittleEndian (lane d 1) (lane d 2)) := rfl
@[simp] theorem evalNets_sentinel :
    (evalNets len d).sentinel = sentinelNet (joinLittleEndian (lane d 1) (lane d 2)) := rfl
@[simp] theorem evalNets_valid : (evalNets len d).valid =
    validNet (lenOkNet len) (negNet (joinLittleEndian (lane d 1) (lane d 2)))
      (overNet (kphNet (joinLittleEndian (lane d 1) (lane d 2)))) := rfl
@[simp] theorem evalNets_mphFull :
    (evalNets len d).mphFull = mphFullNet (kphNet (joinLittleEndian (lane d 1) (lane d 2))) := rfl

/-- The nets depend on the length and the two signal lanes alone. -/
theorem evalNets_congr {lw' dw' : Nat} {len' : BitVec lw'} {d' : BitVec dw'} (hl : lenOkNet len = lenOkNet len')
    (h1 : lane d 1 = lane d' 1) (h2 : lane d 2 = lane d' 2) : evalNets len d = evalNets len' d' := by
  simp only [evalNets, hl, h1, h2]

end

/-- All that DECODE can do, whatever the state it starts from. -/
theorem execDecode_eq (len : BitVec Config.lenW) (a b c : Byte) (r : BitVec Config.restW) (s : State) :
    execDecode len a b c r s =
      .next ((s.setNets (evalNets len (joinLanes a b c r))).setOutputs (evalOutputs len (joinLanes a b c r))) := by
  simp only [execDecode, evalOutputs, resultOf, State.select]
  split <;> rfl

/-- All that a step can do: it gives the state of the present inputs, whatever else the state before held. -/
theorem step_eq (s : State) : step s = .next (State.ofInputs s.inputs) := by
  simp only [step, fetchInstr, decodeInputs, exec, execDecode_eq, joinLanes_lanes, State.setNets_evalNets]
  rfl

/-- The inversion of a step: its next state. -/
theorem step_next {s t : State} (h : step s = .next t) : t = State.ofInputs s.inputs := by
  rw [step_eq] at h
  cases h
  rfl

end Sys2Proof.Machine
end

