-- ==== Sys2Proof/Laws/PerInstr.lean ====
section
/-! SUPPORT. A statement made of every operation as syntax: it has an encoding exactly when it can be presented. -/

namespace Sys2Proof.Laws

/-- An operation has an encoding on the input ports exactly when it is well formed (30_encoding.md R51, R59). -/
def Presentable.Statement (i : Instr) : Prop := (encode i).isSome = i.wellFormed

theorem Presentable.decode (len : BitVec Config.lenW) (a b c : Byte) (r : BitVec Config.restW) :
    Presentable.Statement (.decode len a b c r) := rfl
theorem Presentable.lenchk : Presentable.Statement .lenchk := rfl
theorem Presentable.extract : Presentable.Statement .extract := rfl
theorem Presentable.le16s : Presentable.Statement .le16s := rfl
theorem Presentable.fx2f : Presentable.Statement .fx2f := rfl
theorem Presentable.range : Presentable.Statement .range := rfl
theorem Presentable.kph2mph : Presentable.Statement .kph2mph := rfl
theorem Presentable.out : Presentable.Statement .out := rfl

end Sys2Proof.Laws
end

