-- ==== Sys2Proof/Laws/Rounding.lean ====
section
/-! SUPPORT. Rounding said once: the pattern `rne64` gives is the nearest one, ties to even. -/

namespace Sys2Proof.Machine

theorem f64Frac_lt (c : F64) : f64Frac c < 2 ^ 52 := by
  rw [f64Frac_eq]
  exact Nat.mod_lt _ (by norm_num)

theorem f64Significand_lt (c : F64) : f64Significand c < 2 ^ 53 := by
  have := f64Frac_lt c
  unfold f64Significand
  split <;> omega

theorem f64Unit_ge (c : F64) : -1074 ≤ f64Unit c := by
  unfold f64Unit
  split <;> omega

/-- The value of a pattern built from its sign and its 63 low bits `u × 2^52 + q`: `± q × 2^(u − 1074)`, for a significand `q` of
53 bits (or the carry `2^53`), and for a shorter one on the bottom exponent. -/
theorem f64Val_low_any (s : Bool) {u q : Nat} (h1 : 2 ^ 52 ≤ q ∨ u = 0) (h2 : q ≤ 2 ^ 53)
    (hu : u * 2 ^ 52 + q < 2047 * 2 ^ 52) :
    f64Val (BitVec.ofBool s ++ BitVec.ofNat 63 (u * 2 ^ 52 + q)) =
      (if s then -1 else 1) * (q : ℚ) * 2 ^ ((u : Int) - 1074) := by
  rcases Nat.lt_or_ge q (2 ^ 52) with hq | hq
  · obtain rfl : u = 0 := by omega
    have hm : 0 * 2 ^ 52 + q < 2 ^ 63 := by omega
    have he : (0 * 2 ^ 52 + q) / 2 ^ 52 = 0 := by omega
    have hf : (0 * 2 ^ 52 + q) % 2 ^ 52 = q := by omega
    simp only [f64Val, f64Significand, f64Unit, f64Sign_low s hm, f64Exp_low s hm, f64Frac_low s hm, he, hf, if_pos]
    norm_num
  · exact f64Val_low s hq h2 hu

/-- A nearest integer `q` to `y` is at least as near as every integer, and even if another is equally near. -/
theorem nearest_int {q z : Int} {y : ℚ} (h : |(q : ℚ) - y| ≤ 1 / 2) (ht : |(q : ℚ) - y| = 1 / 2 → q % 2 = 0) :
    |(q : ℚ) - y| ≤ |(z : ℚ) - y| ∧ (z ≠ q → |(q : ℚ) - y| = |(z : ℚ) - y| → q % 2 = 0) := by
  by_cases hz : z = q
  · subst hz
    exact ⟨le_refl _, fun hn => absurd rfl hn⟩
  · have h1 : (1 : ℚ) ≤ |(z : ℚ) - q| := by
      have : (1 : Int) ≤ |z - q| := Int.one_le_abs (sub_ne_zero.2 hz)
      exact_mod_cast this
    have h2 : |(z : ℚ) - q| ≤ |(z : ℚ) - y| + |(q : ℚ) - y| := by
      have := abs_sub_le (z : ℚ) y q
      rwa [abs_sub_comm y] at this
    refine ⟨by linarith, fun _ he => ht (by linarith)⟩

/-- The core of correct rounding: if `q` is a nearest integer to `Q ÷ 2^unit` (even when two are equally near), and `Q` is at least
`2^52 × 2^unit` unless the unit is the least one, then `q × 2^unit` is as near to `Q` as every finite pattern. -/
theorem nearest_of_unit {q : Nat} {unit : Int} {Q : ℚ} (hq : |(q : ℚ) - Q / 2 ^ unit| ≤ 1 / 2)
    (ht : |(q : ℚ) - Q / 2 ^ unit| = 1 / 2 → q % 2 = 0) (hQ : unit ≤ -1074 ∨ (2 : ℚ) ^ (52 : Nat) * 2 ^ unit ≤ Q)
    (c : F64) (t : Bool) :
    let x := (if t then (-1 : ℚ) else 1) * (f64Significand c : ℚ) * 2 ^ f64Unit c
    |(q : ℚ) * 2 ^ unit - Q| ≤ |x - Q| ∧
      (x ≠ (q : ℚ) * 2 ^ unit → |(q : ℚ) * 2 ^ unit - Q| = |x - Q| → q % 2 = 0) := by
  intro x
  have hU : (0 : ℚ) < 2 ^ unit := zpow_pos (by norm_num) _
  have hscale : ∀ z : ℚ, |z * 2 ^ unit - Q| = |z - Q / 2 ^ unit| * 2 ^ unit := by
    intro z
    rw [← abs_of_pos hU, ← abs_mul, abs_of_pos hU, sub_mul, div_mul_cancel₀ _ hU.ne']
  have key : ∀ z : Int, |(q : ℚ) * 2 ^ unit - Q| ≤ |(z : ℚ) * 2 ^ unit - Q| ∧
      ((z : ℚ) * 2 ^ unit ≠ (q : ℚ) * 2 ^ unit → |(q : ℚ) * 2 ^ unit - Q| = |(z : ℚ) * 2 ^ unit - Q| → q % 2 = 0) := by
    intro z
    have h := nearest_int (q := (q : Int)) (z := z) (y := Q / 2 ^ unit) (by simpa using hq)
      (by intro he; have := ht (by simpa using he); omega)
    rw [hscale, hscale]
    refine ⟨mul_le_mul_of_nonneg_right (by simpa using h.1) hU.le, fun hne he => ?_⟩
    have := h.2 (fun hz => hne (by rw [hz]; simp)) (by simpa using mul_right_cancel₀ hU.ne' he)
    omega
  rcases le_or_gt unit (f64Unit c) with hle | hlt
  · obtain ⟨d, hd⟩ : ∃ d : Nat, f64Unit c = unit + d := ⟨(f64Unit c - unit).toNat, by omega⟩
    have hx : x = (((if t then (-1 : Int) else 1) * f64Significand c * 2 ^ d : Int) : ℚ) * 2 ^ unit := by
      simp only [x, hd, zpow_add₀ (by norm_num : (2 : ℚ) ≠ 0)]
      cases t <;> push_cast <;> simp <;> ring
    rw [hx]
    exact key _
  · have hlow : (2 : ℚ) ^ (52 : Nat) * 2 ^ unit ≤ Q := by
      have := f64Unit_ge c
      rcases hQ with h | h
      · omega
      · exact h
    have hsig : (f64Significand c : ℚ) < 2 ^ (53 : Nat) := by exact_mod_cast f64Significand_lt c
    have hunit : (2 : ℚ) ^ f64Unit c * 2 ≤ 2 ^ unit := by
      have : (2 : ℚ) ^ (f64Unit c + 1) ≤ 2 ^ unit := zpow_le_zpow_right₀ (by norm_num) (by omega)
      rwa [zpow_add₀ (by norm_num), zpow_one] at this
    have hpos : (0 : ℚ) < 2 ^ f64Unit c := zpow_pos (by norm_num) _
    have hxlt : x < (2 : ℚ) ^ (52 : Nat) * 2 ^ unit := by
      have hsx : x ≤ (f64Significand c : ℚ) * 2 ^ f64Unit c := by
        have h0 : (0 : ℚ) ≤ (f64Significand c : ℚ) * 2 ^ f64Unit c := by positivity
        cases t
        · simp [x]
        · simp only [x, if_true]
          linarith
      calc x ≤ (f64Significand c : ℚ) * 2 ^ f64Unit c := hsx
        _ < 2 ^ (53 : Nat) * 2 ^ f64Unit c := mul_lt_mul_of_pos_right hsig hpos
        _ = 2 ^ (52 : Nat) * (2 ^ f64Unit c * 2) := by ring
        _ ≤ 2 ^ (52 : Nat) * 2 ^ unit := mul_le_mul_of_nonneg_left hunit (by positivity)
    have hstrict : |(q : ℚ) * 2 ^ unit - Q| < |x - Q| := by
      have h52 := (key (2 ^ 52)).1
      rw [abs_of_nonpos (by push_cast; linarith : ((2 ^ 52 : Int) : ℚ) * 2 ^ unit - Q ≤ 0)] at h52
      rw [abs_of_neg (by linarith : x - Q < 0)]
      push_cast at h52
      linarith
    exact ⟨hstrict.le, fun _ he => absurd he hstrict.ne⟩

/-- The integer that `rne64` rounds to: a nearest integer to the exact value in the chosen unit, even when two are equally near; a
significand of 53 bits (or the carry) unless the unit is the least one. -/
theorem rounded_significand {N : Nat} {k unit : Int} (hN : N ≠ 0) (hu : unit = max (k + bitLength N - 53) (-1074)) :
    let q := if k ≤ unit then roundShift N (unit - k).toNat else N <<< (k - unit).toNat
    let y : ℚ := (N : ℚ) * 2 ^ k / 2 ^ unit
    q ≤ 2 ^ 53 ∧ (2 ^ 52 ≤ q ∨ unit = -1074) ∧ |(q : ℚ) - y| ≤ 1 / 2 ∧ (|(q : ℚ) - y| = 1 / 2 → q % 2 = 0) ∧
      (unit ≤ -1074 ∨ (2 : ℚ) ^ (52 : Nat) ≤ y) := by
  intro q y
  have hlt := lt_two_pow_bitLength N
  have hge := two_pow_bitLength_le hN
  have hL := bitLength_pos hN
  have two : (2 : ℚ) ≠ 0 := by norm_num
  by_cases hk : k ≤ unit
  · obtain ⟨sh, hsh⟩ : ∃ sh : Nat, unit = k + sh := ⟨(unit - k).toNat, by omega⟩
    have hq : q = roundShift N sh := by
      have : (unit - k).toNat = sh := by omega
      simp only [q, if_pos hk, this]
    have hy : y = (N : ℚ) / 2 ^ sh := by
      have : (2 : ℚ) ^ unit = 2 ^ k * 2 ^ sh := by rw [hsh, zpow_add₀ two, zpow_natCast]
      simp only [y, this]
      field_simp
    obtain ⟨r1, r2, r3⟩ := roundShift_nearest N sh
    rw [← hq] at r1 r2 r3
    have hP : (0 : ℚ) < 2 ^ sh := by positivity
    have d1 : y ≤ (q : ℚ) + 1 / 2 := by
      rw [hy, div_le_iff₀ hP]
      have : (2 : ℚ) * N ≤ (2 * q + 1) * 2 ^ sh := by exact_mod_cast r1
      linarith
    have d2 : (q : ℚ) - 1 / 2 ≤ y := by
      rw [hy, le_div_iff₀ hP]
      have : (2 : ℚ) * q * 2 ^ sh ≤ 2 * N + 2 ^ sh := by exact_mod_cast r2
      linarith
    have htie : |(q : ℚ) - y| = 1 / 2 → q % 2 = 0 := by
      intro h
      rcases (abs_eq (by norm_num : (0 : ℚ) ≤ 1 / 2)).1 h with h | h
      · refine r3 (Or.inr ?_)
        have e : y = (q : ℚ) - 1 / 2 := by linarith
        rw [hy, div_eq_iff hP.ne'] at e
        have : (2 : ℚ) * q * 2 ^ sh = 2 * N + 2 ^ sh := by linarith
        exact_mod_cast this
      · refine r3 (Or.inl ?_)
        have e : y = (q : ℚ) + 1 / 2 := by linarith
        rw [hy, div_eq_iff hP.ne'] at e
        have : (2 : ℚ) * N = (2 * q + 1) * 2 ^ sh := by linarith
        exact_mod_cast this
    have hNup : N < 2 ^ 53 * 2 ^ sh := by
      rw [← pow_add]
      exact lt_of_lt_of_le hlt (Nat.pow_le_pow_right (by norm_num) (by omega))
    have hq53 : q ≤ 2 ^ 53 := by
      by_contra hc
      have : (2 ^ 53 + 1) * 2 ^ sh ≤ q * 2 ^ sh := Nat.mul_le_mul_right _ (by omega)
      nlinarith [Nat.two_pow_pos sh]
    have hlow : unit = -1074 ∨ 2 ^ 52 * 2 ^ sh ≤ N := by
      rcases (by omega : unit = -1074 ∨ bitLength N - 1 = 52 + sh) with h | h
      · exact Or.inl h
      · right
        rwa [h, pow_add] at hge
    refine ⟨hq53, ?_, abs_le.2 ⟨by linarith, by linarith⟩, htie, ?_⟩
    · rcases hlow with h | h
      · exact Or.inr h
      · left
        by_contra hc
        have : q * 2 ^ sh + 2 ^ sh ≤ 2 ^ 52 * 2 ^ sh := by
          have := Nat.mul_le_mul_right (2 ^ sh) (by omega : q + 1 ≤ 2 ^ 52)
          rwa [Nat.add_mul, Nat.one_mul] at this
        nlinarith [Nat.two_pow_pos sh]
    · rcases hlow with h | h
      · exact Or.inl h.le
      · right
        rw [hy, le_div_iff₀ hP]
        exact_mod_cast h
  · obtain ⟨d, hd⟩ : ∃ d : Nat, k = unit + d := ⟨(k - unit).toNat, by omega⟩
    have hq : q = N * 2 ^ d := by
      have : (k - unit).toNat = d := by omega
      simp only [q, if_neg hk, this, Nat.shiftLeft_eq]
    have hy : y = (q : ℚ) := by
      have : (2 : ℚ) ^ k = 2 ^ unit * 2 ^ d := by rw [hd, zpow_add₀ two, zpow_natCast]
      have hU : (2 : ℚ) ^ unit ≠ 0 := zpow_ne_zero _ two
      simp only [y, this, hq]
      field_simp
      push_cast
      ring
    have hq53 : q < 2 ^ 53 := by
      have h1 : q < 2 ^ bitLength N * 2 ^ d := by
        rw [hq]
        exact Nat.mul_lt_mul_of_pos_right hlt (Nat.two_pow_pos d)
      rw [← pow_add] at h1
      exact lt_of_lt_of_le h1 (Nat.pow_le_pow_right (by norm_num) (by omega))
    have hlow : unit = -1074 ∨ 2 ^ 52 ≤ q := by
      rcases (by omega : unit = -1074 ∨ bitLength N - 1 + d = 52) with h | h
      · exact Or.inl h
      · right
        rw [hq, ← h, pow_add]
        exact Nat.mul_le_mul_right _ hge
    refine ⟨hq53.le, hlow.symm, by simp [hy], by simp [hy], ?_⟩
    rcases hlow with h | h
    · exact Or.inl h.le
    · right
      rw [hy]
      exact_mod_cast h

/-- An exact value of at most the largest finite pattern has its leading one below bit 1024. -/
theorem leading_bit_le {N : Nat} {k : Int} (hN : N ≠ 0) (hk : (N : ℚ) * 2 ^ k ≤ (2 ^ 53 - 1) * 2 ^ (971 : Int)) :
    k + bitLength N ≤ 1024 := by
  have hge : ((2 ^ (bitLength N - 1) : Nat) : ℚ) ≤ N := by exact_mod_cast two_pow_bitLength_le hN
  have hL := bitLength_pos hN
  by_contra hc
  have h1 : (2 : ℚ) ^ (1024 : Int) ≤ 2 ^ ((bitLength N - 1 : Nat) + k : Int) :=
    zpow_le_zpow_right₀ (by norm_num) (by omega)
  rw [zpow_add₀ (by norm_num), zpow_natCast] at h1
  have h2 : (2 : ℚ) ^ (bitLength N - 1) * 2 ^ k ≤ N * 2 ^ k := by
    push_cast at hge
    exact mul_le_mul_of_nonneg_right hge (zpow_pos (by norm_num) _).le
  have h3 : (2 : ℚ) ^ (1024 : Int) = 2 ^ 53 * 2 ^ (971 : Int) := by
    rw [← zpow_natCast, ← zpow_add₀ (by norm_num)]
    norm_num
  have h4 : (0 : ℚ) < 2 ^ (971 : Int) := zpow_pos (by norm_num) _
  rw [h3] at h1
  have h5 := h1.trans (h2.trans hk)
  rw [sub_mul, one_mul] at h5
  exact absurd h5 (by simp only [not_le]; exact sub_lt_self _ h4)

/-- All that `rne64` can do, for an exact value of at most the largest finite pattern: the nearest finite pattern, ties to the even
fraction, with the sign it is given (00_scope.md section 5). -/
theorem rne64_nearest (s : Bool) {N : Nat} {k : Int} (hN : N ≠ 0)
    (hk : (N : ℚ) * 2 ^ k ≤ (2 ^ 53 - 1) * 2 ^ (971 : Int)) :
    IsNearestEven ((if s then -1 else 1) * ((N : ℚ) * 2 ^ k)) (rne64 s N k) ∧ f64Sign (rne64 s N k) = s := by
  obtain ⟨unit, hu⟩ : ∃ unit, unit = max (k + bitLength N - 53) (-1074) := ⟨_, rfl⟩
  have hsig := rounded_significand hN hu
  have hlead := leading_bit_le hN hk
  have hdef : rne64 s N k = BitVec.ofBool s ++ BitVec.ofNat 63 ((unit + 1074).toNat * 2 ^ 52 +
      (if k ≤ unit then roundShift N (unit - k).toNat else N <<< (k - unit).toNat)) := by rw [hu]; rfl
  rw [hdef]
  generalize (if k ≤ unit then roundShift N (unit - k).toNat else N <<< (k - unit).toNat) = q at *
  obtain ⟨h53, h52, hnear, htie, hbig⟩ := hsig
  obtain ⟨u, hu'⟩ : ∃ u : Nat, unit = (u : Int) - 1074 := ⟨(unit + 1074).toNat, by omega⟩
  have hU : (unit + 1074).toNat = u := by omega
  rw [hU]
  have hpos : (0 : ℚ) < 2 ^ unit := zpow_pos (by norm_num) _
  have htop : u * 2 ^ 52 + q < 2047 * 2 ^ 52 := by
    rcases (by omega : u < 2045 ∨ u = 2045) with h | h
    · omega
    · have e : unit = 971 := by omega
      have hy : (N : ℚ) * 2 ^ k / 2 ^ unit ≤ 2 ^ 53 - 1 := by
        rw [div_le_iff₀ hpos, e]
        exact hk
      have hq : (q : ℚ) < 2 ^ 53 := by
        have := (abs_le.1 hnear).2
        linarith
      have : q < 2 ^ 53 := by exact_mod_cast hq
      omega
  have hm : u * 2 ^ 52 + q < 2 ^ 63 := by omega
  have hval := f64Val_low_any s (u := u) (q := q) (by omega) h53 htop
  rw [← hu'] at hval
  refine ⟨⟨?_, fun c hc => ?_⟩, f64Sign_low s hm⟩
  · simp only [f64IsFinite, f64Exp_low s hm, bne_iff_ne]
    omega
  · rw [hval, f64Frac_low s hm]
    have hQ : unit ≤ -1074 ∨ (2 : ℚ) ^ (52 : Nat) * 2 ^ unit ≤ (N : ℚ) * 2 ^ k :=
      hbig.imp id fun h => (le_div_iff₀ hpos).1 h
    have hpar : (u * 2 ^ 52 + q) % 2 ^ 52 % 2 = q % 2 := by omega
    rw [hpar]
    cases s
    · have h := nearest_of_unit hnear htie hQ c (f64Sign c)
      simp only [Bool.false_eq_true, if_false, one_mul] at *
      exact h
    · have h := nearest_of_unit hnear htie hQ c (!f64Sign c)
      have hx : (if (!f64Sign c) = true then (-1 : ℚ) else 1) * (f64Significand c : ℚ) * 2 ^ f64Unit c = -f64Val c := by
        unfold f64Val
        cases f64Sign c <;> simp
      simp only [hx] at h
      have e1 : ∀ a b : ℚ, |-1 * a - -1 * b| = |a - b| := fun a b => by rw [← abs_neg]; congr 1; ring
      have e2 : ∀ a b : ℚ, |a - -1 * b| = |-a - b| := fun a b => by rw [← abs_neg]; congr 1; ring
      simp only [if_true]
      rw [mul_assoc, e1, e2]
      refine ⟨h.1, fun hne he => h.2 (fun hxx => hne (by linarith)) he⟩

end Sys2Proof.Machine
end

