-- ==== Sys2Proof/Tests/Slice0.lean ====
section
/-! SUPPORT. The model's own tests: the vectors of 95_test_vectors.md, the well-formedness smoke, and a witness for the hypotheses
of each statement. -/

namespace Sys2Proof.Tests

open Sys2Proof.Machine

/-- The machine with one value on its input ports. -/
def withInputs (len : BitVec Config.lenW) (data : BitVec Config.dataW) : State := State.reset.drive ⟨len, data⟩

/-- The machine with one value of the nets. -/
def withNets (n : Nets) : State := State.reset.setNets n

/-- All nets at zero, the ground on which a test sets the nets a stage reads. -/
def zeroNets : Nets := ⟨false, 0#8, 0#8, 0#16, 0#16, 0#64, false, false, false, false, 0#64⟩

theorem withNets_nets (n : Nets) : (withNets n).nets = n := State.setNets_nets _ n

/-- The three-byte message `[00 b1 b2]` of Table A, from its signal. -/
def signalMessage (raw : Word16) : State := withInputs 3#4 ((0#40 ++ raw) ++ 0#8)

/-- The state a step ends in (it always ends in one). -/
def afterStep (s : State) : State :=
  match step s with
  | .next t => t
  | .fault _ => s
  | .refused _ => s

theorem step_afterStep (s : State) : step s = .next (afterStep s) := by
  unfold afterStep
  rw [step_eq]

/-! ### Well-formedness: the smoke test -/

/-- A stage cannot be presented: each of the seven is refused by the check, and DECODE is not (30_encoding.md R58, R59). -/
theorem test_wellFormed_refuses_stages :
    Instr.lenchk.wellFormed = false ∧ Instr.extract.wellFormed = false ∧ Instr.le16s.wellFormed = false ∧
    Instr.fx2f.wellFormed = false ∧ Instr.range.wellFormed = false ∧ Instr.kph2mph.wellFormed = false ∧
    Instr.out.wellFormed = false ∧ (Instr.decode 0#4 0#8 0#8 0#8 0#40).wellFormed = true := by decide

/-- The parameters that follow from others (00_scope.md R5, 30_encoding.md R50). -/
theorem test_parameters :
    Config.lenW = Nat.clog 2 (Config.msgMax + 1) ∧ Config.dataW = 8 * Config.msgMax ∧
    Config.restW = 8 * (Config.msgMax - 3) ∧ Config.minLen = Config.sigOffset + Config.sigBytes ∧
    Config.sigBits = 8 * Config.sigBytes := by decide

/-! ### Decoding: words written out from 30_encoding.md R50 -/

/-- V39: `[12 34 56 78]`, four bytes. -/
theorem test_decode_V39 :
    decodeInputs 4#4 0x0000000078563412#64 = .decode 4#4 0x12#8 0x34#8 0x56#8 0x0000000078#40 := by decide

/-- V40: `[A5 9A 3C 5A C3 3C 0F]`, seven bytes. -/
theorem test_decode_V40 :
    decodeInputs 7#4 0x000F3CC35A3C9AA5#64 = .decode 7#4 0xA5#8 0x9A#8 0x3C#8 0x000F3CC35A#40 := by decide

/-- The table's word `0x563412` is the bytes `12 34 56` on lanes 0 to 2, zeros above; it selects DECODE as every word does. -/
theorem test_decodeTableWord :
    decodeTableWord 24 0x563412 = some (.decode 8#4 0x12#8 0x34#8 0x56#8 0x0000000000#40) := by decide

/-- No value of the ports decodes to a stage (30_encoding.md R59): `[12 34 56 78]` decodes to none of them. -/
theorem test_decode_never_a_stage : ∀ i ∈ stagesInOrder, decodeInputs 4#4 0x0000000078563412#64 ≠ i := by decide

/-- The fields of R50: none at 2 bytes, an empty `IGN3` at 3, five bytes of it at 8 and above. -/
theorem test_fieldsOf :
    fieldsOf 2#4 0x0000000000780000#64 = none ∧
    fieldsOf 3#4 0x00000000ff7856aa#64 = some ⟨0xAA#8, 0x56#8, 0x78#8, []⟩ ∧
    fieldsOf 15#4 0x0807060504190302#64 = some ⟨0x02#8, 0x03#8, 0x19#8, [0x04#8, 0x05#8, 0x06#8, 0x07#8, 0x08#8]⟩ := by
  decide

/-- A message as the host presents it: `[12 34 56 78]` is V39. -/
theorem test_presented :
    presentedLen [0x12#8, 0x34#8, 0x56#8, 0x78#8] = 4#4 ∧
    presentedData [0x12#8, 0x34#8, 0x56#8, 0x78#8] = 0x0000000078563412#64 := by decide

/-! ### The stages, on the vectors -/

/-- Table C: LENCHK for every value of `msg_len`. -/
theorem test_lenchk_tableC :
    (List.range 16).map (fun n => lenOkNet (BitVec.ofNat 4 n)) =
      [false, false, false, true, true, true, true, true, true, true, true, true, true, true, true, true] := by decide

/-- V29: EXTRACT reads the lanes as driven, for a message of one byte too. -/
theorem test_extract_V29 :
    exec .extract (withInputs 1#4 0xFFFFFFFFFFFFFFFF#64) =
      .next ((withInputs 1#4 0xFFFFFFFFFFFFFFFF#64).setBytes 0xFF#8 0xFF#8) := by rfl

/-- V11 and V12, V9 and V24: LE16S joins the bytes little-endian, and swapping them is another number. -/
theorem test_le16s_order :
    joinLittleEndian 0x34#8 0x12#8 = 0x1234#16 ∧ joinLittleEndian 0x12#8 0x34#8 = 0x3412#16 ∧
    sint16 (joinLittleEndian 0xFF#8 0x00#8) = 255 ∧ sint16 (joinLittleEndian 0x00#8 0xFF#8) = -256 := by decide

/-- V18, V19, V26: the ends of the two's-complement range, and −1. -/
theorem test_le16s_ends : sint16 0x7FFF#16 = 32767 ∧ sint16 0x8000#16 = -32768 ∧ sint16 0xFFFF#16 = -1 := by decide

/-- Table D, V1 and V39: FX2F at powers of two of both signs, at 0, and at 22068. -/
theorem test_fx2f_tableD :
    [0x0000#16, 0x0001#16, 0xFFFF#16, 0x0100#16, 0xFF00#16, 0x4000#16, 0x8000#16, 0x5634#16].map kphNet =
      [0x0000000000000000#64, 0x3F70000000000000#64, 0xBF70000000000000#64, 0x3FF0000000000000#64, 0xBFF0000000000000#64,
       0x4050000000000000#64, 0xC060000000000000#64, 0x40558D0000000000#64] := by decide +kernel

/-- V26: RANGE on the sentinel. -/
theorem test_range_V26 :
    (afterStep (signalMessage 0xFFFF#16)).nets.isOver = false ∧ (afterStep (signalMessage 0xFFFF#16)).nets.neg = true ∧
    (afterStep (signalMessage 0xFFFF#16)).nets.sentinel = true ∧ (afterStep (signalMessage 0xFFFF#16)).nets.valid = false := by
  decide +kernel

/-- 42_range.md R90: the comparison is strict. The ceiling itself passes and the next pattern above it does not. -/
theorem test_range_strict : overNet 0x406F5FDF3B645A1D#64 = false ∧ overNet 0x406F5FDF3B645A1E#64 = true := by
  decide +kernel

/-- Table E, V1, V4 to V7, V15, V18 to V20: KPH2MPH exact, at ties of both kinds, above half, and negative. -/
theorem test_kph2mph_tableE :
    [0x0000#16, 0x0003#16, 0x0007#16, 0x0009#16, 0x000B#16, 0x7000#16, 0x7FFF#16, 0x8000#16, 0x8001#16].map
        (fun raw => mphFullNet (kphNet raw)) =
      [0x0000000000000000#64, 0x3F7DD368C8407612#64, 0x3F9165FD1F7AEF8A#64, 0x3F965E8E9630588E#64, 0x3F9B57200CE5C190#64,
       0x405165FD1F7AEF8A#64, 0x4053E21E1649EE61#64, 0xC053E245DAD5A40C#64, 0xC053E21E1649EE61#64] := by decide +kernel

/-- 43_convert.md R102 on Table E's rows 7, 9, 120 and 30720. -/
theorem test_kph2mph_procedure :
    [0x0007#16, 0x0009#16, 0x0078#16, 0x7800#16].map mphFullProcedure =
      [0x3F9165FD1F7AEF8A#64, 0x3F965E8E9630588E#64, 0x3FD2A4217D2849CB#64, 0x4052A4217D2849CB#64] := by decide +kernel

/-- 43_convert.md R104: OUT with `valid` = 1, and with `valid` = 0, which hides `mph_full`. -/
theorem test_out :
    (withNets { zeroNets with valid := true, mphFull := 0x4052A4217D2849CB#64 }).select true 0x4052A4217D2849CB#64 =
      (withNets { zeroNets with valid := true, mphFull := 0x4052A4217D2849CB#64 }).setOutputs ⟨true, 0x4052A4217D2849CB#64⟩ ∧
    exec .out (withNets { zeroNets with mphFull := 0x4052A4217D2849CB#64 }) =
      .next ((withNets { zeroNets with mphFull := 0x4052A4217D2849CB#64 }).setOutputs ⟨false, 0x7FF8000000000000#64⟩) :=
  ⟨rfl, rfl⟩

/-- V39, V36, V31 and V38: DECODE on the ports. -/
theorem test_step_vectors :
    [afterStep (withInputs 4#4 0x0000000078563412#64), afterStep (withInputs 9#4 0x0000000000780000#64),
     afterStep (withInputs 2#4 0x0000000000780000#64), afterStep (withInputs 15#4 0x0000000000800000#64)].map State.outputs =
      [⟨true, 0x404AC835B6D0E205#64⟩, ⟨true, 0x4052A4217D2849CB#64⟩, ⟨false, 0x7FF8000000000000#64⟩,
       ⟨false, 0x7FF8000000000000#64⟩] := by decide +kernel

/-- V39 and V31: the outputs are DECODE of the inputs as soon as these are driven, with no step (10_state.md R19), also after a
message with another result. -/
theorem test_drive_vectors :
    (withInputs 4#4 0x0000000078563412#64).outputs = ⟨true, 0x404AC835B6D0E205#64⟩ ∧
    ((withInputs 4#4 0x0000000078563412#64).drive ⟨2#4, 0x0000000000780000#64⟩).outputs = ⟨false, 0x7FF8000000000000#64⟩ := by
  decide +kernel

/-- The running example as a list (44_decode.md R110, R114), and a message that is too short. -/
theorem test_roundedMph : roundedMph 22068 = 0x404AC835B6D0E205#64 ∧ decodeList [0xFF#8] = none := by decide +kernel

/-- A word of the table as the next step reads it (withFetchWord). -/
theorem test_withFetchWord :
    step (State.reset.withFetchWord 24 0x563412) =
      exec (.decode 8#4 0x12#8 0x34#8 0x56#8 0x0000000000#40) (State.reset.withFetchWord 24 0x563412) := by rfl

/-! ### Witnesses: the hypotheses of the statements can be met -/

theorem test_witness_DecodeAndEncodeAgree : (Instr.decode 15#4 0xFF#8 0x00#8 0x80#8 0x8000000001#40).wellFormed = true := by
  decide

theorem test_witness_StepRunsThePresentedOperation :
    encode (.decode 4#4 0x12#8 0x34#8 0x56#8 0x0000000078#40) =
      some ((withInputs 4#4 0x0000000078563412#64).msgLen, (withInputs 4#4 0x0000000078563412#64).msgData) := by decide

theorem test_witness_BitsOfALane : lane (withInputs 8#4 0x8000000000000001#64).msgData 7 = 0x80#8 ∧ 7 < 8 := by decide

theorem test_witness_OnlyLengthThreeMatters :
    ∃ s t s' t', step s = .next t ∧ s.msgLen.toNat = 2 ∧ step s' = .next t' ∧ s'.msgLen.toNat = 15 :=
  ⟨withInputs 2#4 0#64, _, withInputs 15#4 0#64, _, step_afterStep _, rfl, step_afterStep _, rfl⟩

theorem test_witness_NoOperationWritesTheMessage : ∃ i s t, exec i s = .next t ∧ i = Instr.extract :=
  ⟨.extract, withInputs 3#4 0#64, _, rfl, rfl⟩

theorem test_witness_OutputsIgnoreLanesOutsideTheSignal :
    ∃ s s' t t', step s = .next t ∧ step s' = .next t' ∧ s.msgLen = s'.msgLen ∧ s.msgLen.toNat = 3 ∧
      s.msgData ≠ s'.msgData ∧ (∀ i < s.msgLen.toNat, lane s.msgData i = lane s'.msgData i) ∧
      SameSignalLanes s.msgData s'.msgData :=
  ⟨withInputs 3#4 0x0000000000780000#64, withInputs 3#4 0xFFFFFFFFFF780000#64, _, _, step_afterStep _, step_afterStep _, rfl,
    rfl, by decide, by decide, by decide, by decide⟩

theorem test_witness_OutputsIgnore_short :
    ∃ s t, step s = .next t ∧ s.msgLen.toNat = 2 ∧ s.msgLen.toNat ≤ 2 :=
  ⟨withInputs 2#4 0xFFFFFFFFFFFFFFFF#64, _, step_afterStep _, rfl, by decide⟩

theorem test_witness_LenchkTestsTheLength :
    ∃ s t, step s = .next t ∧ t.nets.lenOk = false :=
  ⟨withInputs 2#4 0#64, _, step_afterStep _, by decide +kernel⟩

theorem test_witness_ExtractTakesTheSignalBytes : 3 ≤ (withInputs 3#4 0#64).msgLen.toNat := by decide

theorem test_witness_Fx2fAtBitLevel :
    (∃ s t, exec .fx2f s = .next t ∧ s.nets.raw = 0#16) ∧
    (∃ s t, exec .fx2f s = .next t ∧ s.nets.raw ≠ 0#16 ∧ 2 ^ 0 ≤ (sint16 s.nets.raw).natAbs ∧
      (sint16 s.nets.raw).natAbs < 2 ^ (0 + 1)) ∧
    (∃ s t, exec .fx2f s = .next t ∧ s.nets.raw ≠ 0#16 ∧ 2 ^ 15 ≤ (sint16 s.nets.raw).natAbs ∧
      (sint16 s.nets.raw).natAbs < 2 ^ (15 + 1)) :=
  ⟨⟨withNets zeroNets, _, rfl, by rw [withNets_nets]; decide⟩,
    ⟨withNets { zeroNets with raw := 0xFFFF#16 }, _, rfl, by rw [withNets_nets]; decide⟩,
    ⟨withNets { zeroNets with raw := 0x8000#16 }, _, rfl, by rw [withNets_nets]; decide⟩⟩

theorem test_witness_RangeWritesItsFourNets :
    f64IsFinite (withNets { zeroNets with kph := 0x406F5FDF3B645A1E#64 }).nets.kph = true := by
  rw [withNets_nets]
  decide +kernel

theorem test_witness_Kph2mphRoundsTheProductOnce :
    f64IsFinite (withNets { zeroNets with kph := 0x0000000000000001#64 }).nets.kph = true ∧
    f64Val (withNets { zeroNets with kph := 0x0000000000000001#64 }).nets.kph ≠ 0 ∧
    (withNets zeroNets).nets.kph = 0x0000000000000000#64 := by
  have h1 : f64Sign (0x0000000000000001#64) = false := by decide +kernel
  have h2 : f64Significand (0x0000000000000001#64) = 1 := by decide +kernel
  have h3 : f64Unit (0x0000000000000001#64) = -1074 := by decide +kernel
  rw [withNets_nets, withNets_nets]
  refine ⟨by decide +kernel, ?_, by decide⟩
  simp [f64Val, h1, h2, h3]

theorem test_witness_OutPresentsTheResult :
    (withNets { zeroNets with valid := true }).nets.valid = true ∧ (withNets zeroNets).nets.valid = false := by
  rw [withNets_nets, withNets_nets]
  decide

theorem test_witness_GreaterThanComparesValues :
    f64IsFinite 0x405FFFC000000000#64 = true ∧ f64IsFinite Config.kphMax = true := by decide +kernel

theorem test_witness_ConstantsAreTheNearestPatterns :
    f64IsFinite 0x0000000000000000#64 = true ∧ f64Val 0x0000000000000000#64 ≠ f64Val Config.kphMax ∧
      f64Val 0x0000000000000000#64 ≠ f64Val Config.mphPerKph := by
  have z2 : f64Significand 0x0000000000000000#64 = 0 := by decide +kernel
  have k1 : f64Sign Config.kphMax = false := by decide +kernel
  have k2 : f64Significand Config.kphMax = 8831136656808477 := by decide +kernel
  have m1 : f64Sign Config.mphPerKph = false := by decide +kernel
  have m2 : f64Significand Config.mphPerKph = 5596814209557516 := by decide +kernel
  have p : ∀ z : Int, (2 : ℚ) ^ z ≠ 0 := fun z => zpow_ne_zero z (by norm_num)
  refine ⟨by decide +kernel, ?_, ?_⟩
  · simp [f64Val, z2, k1, k2, p]
  · simp [f64Val, z2, m1, m2, p]

theorem test_witness_FieldsOfTheMessage :
    (2#4 : BitVec Config.lenW).toNat < 3 ∧
    ∃ f, fieldsOf 4#4 0x0000000078563412#64 = some f ∧ 0 < f.ign3.length :=
  ⟨by decide, ⟨0x12#8, 0x34#8, 0x56#8, [0x78#8]⟩, by decide, by decide⟩

theorem test_witness_EveryInputSelectsDecode : Instr.lenchk ∈ stagesInOrder ∧ Instr.out ∈ stagesInOrder := by decide

theorem test_witness_Le16sReadsTwosComplement : ∃ z : Int, -32768 ≤ z ∧ z ≤ 32767 ∧ z = -32768 :=
  ⟨-32768, by decide, by decide, rfl⟩

theorem test_witness_RangeOfKph : sint16 0x8000#16 < sint16 0x7FFF#16 ∧ (0x0001#16 : Word16) ≠ 0#16 := by decide

theorem test_witness_IntegerProcedureGivesMphFull : (0x8000#16 : Word16) ≠ 0#16 ∧ (0x0001#16 : Word16) ≠ 0#16 := by decide

theorem test_witness_TheCeilingIsNeverExceeded : ∃ s t, step s = .next t ∧ sint16 t.nets.raw = 32767 :=
  ⟨signalMessage 0x7FFF#16, _, step_afterStep _, by decide +kernel⟩

theorem test_witness_PresentExactlyForNonNegativeRaw :
    (∃ s t, step s = .next t ∧ t.present = true ∧ sint16 t.nets.raw = 32767) ∧
    (∃ s t, step s = .next t ∧ t.present = false ∧ sint16 t.nets.raw = -32768) :=
  ⟨⟨signalMessage 0x7FFF#16, _, step_afterStep _, by decide +kernel, by decide +kernel⟩,
    ⟨signalMessage 0x8000#16, _, step_afterStep _, by decide +kernel, by decide +kernel⟩⟩

theorem test_witness_StepHoldsNothingButTheInputs :
    ∃ s t, step s = .next t ∧ s.probe ≠ none ∧ NetsCanonical s :=
  ⟨withNets { zeroNets with b1 := 0x01#8 }, _, step_afterStep _, by decide +kernel, by decide +kernel⟩

theorem test_witness_NetsAreHeldOnlyWhenForeign :
    (∃ s t, NetsCanonical s ∧ exec .lenchk s = .next t ∧ t.probe ≠ none) ∧
    (∃ s t, NetsCanonical s ∧ NetsCanonical t ∧ s.inputs = t.inputs ∧ s.outputs = t.outputs ∧ s.nets = t.nets) :=
  ⟨⟨withNets { zeroNets with b1 := 0x01#8 }, _, by decide +kernel, rfl, by decide +kernel⟩,
    ⟨State.reset, State.reset, by decide, by decide, rfl, rfl, rfl⟩⟩

theorem test_witness_RangeOnAPatternWithoutValue :
    f64Class (withNets { zeroNets with kph := Config.absentBits }).nets.kph = .nan ∧
    f64Class (withNets { zeroNets with kph := 0xFFF0000000000000#64 }).nets.kph = .infinity := by
  rw [withNets_nets, withNets_nets]
  decide +kernel

theorem test_witness_Kph2mphOnAPatternWithoutProduct :
    f64IsFinite (withNets { zeroNets with kph := 0x7FF0000000000000#64 }).nets.kph = false ∧
    (withNets { zeroNets with kph := 0x8000000000000000#64 }).nets.kph = 0x8000000000000000#64 := by
  rw [withNets_nets, withNets_nets]
  decide +kernel

theorem test_witness_InfinitiesLieBeyondTheFinitePatterns : f64IsFinite 0x7FEFFFFFFFFFFFFF#64 = true := by decide +kernel

theorem test_witness_EncodingOfTheResult :
    (∃ s t, step s = .next t ∧ t.present = false) ∧ (∃ s t, step s = .next t ∧ t.present = true) :=
  ⟨⟨withInputs 0#4 0#64, _, step_afterStep _, by decide +kernel⟩,
    ⟨signalMessage 0x0001#16, _, step_afterStep _, by decide +kernel⟩⟩

theorem test_witness_ResetIsSettledAndAbsent : ∃ s t, step (State.drive s ⟨0#4, 0#64⟩) = .next t ∧ s ≠ State.reset :=
  ⟨signalMessage 0x0001#16, _, step_afterStep _, by decide⟩

theorem test_witness_EveryEvaluationAnswers : ∃ s u, step s = .next u ∧ s = withInputs 0#4 0#64 :=
  ⟨_, _, step_afterStep _, rfl⟩

theorem test_witness_ExactAndTieProducts : 1 % 2 = 1 ∧ 1 * 2 ^ 14 ≤ 32767 ∧ 7 % 2 = 1 ∧ 7 * 2 ^ 12 ≤ 32767 := by decide

theorem test_witness_RangeOfMphFull : ∃ s t, step s = .next t ∧ t.nets.valid = true :=
  ⟨signalMessage 0x7FFF#16, _, step_afterStep _, by decide +kernel⟩

theorem test_witness_StepEstablishesTheRangeInvariant :
    (∃ s t, step s = .next t ∧ t.present = true) ∧ (∃ s t, step s = .next t ∧ t.present = false) :=
  ⟨⟨signalMessage 0x0000#16, _, step_afterStep _, by decide +kernel⟩,
    ⟨signalMessage 0x8000#16, _, step_afterStep _, by decide +kernel⟩⟩

theorem test_witness_SettledStateIsFixed : Settled (afterStep (signalMessage 0x7800#16)) := by
  rw [step_next (step_afterStep (signalMessage 0x7800#16))]
  exact ⟨rfl, rfl⟩

theorem test_witness_ResultDependsOnPresentInputsAlone :
    ∃ s s' t t', s ≠ s' ∧ s.inputs = s'.inputs ∧ step s = .next t ∧ step s' = .next t' :=
  ⟨signalMessage 0x0001#16, (signalMessage 0x0001#16).presentSpeed 0#64, _, _, by decide, rfl, step_afterStep _,
    step_afterStep _⟩

theorem test_witness_ValueEquationHoldsExactly :
    (∃ s t, step s = .next t ∧ 3 ≤ s.msgLen.toNat ∧ sint16 t.nets.raw = 0) ∧
    (∃ s t, step s = .next t ∧ 3 ≤ s.msgLen.toNat ∧ t.nets.rawU.toNat = 32768) :=
  ⟨⟨signalMessage 0x0000#16, _, step_afterStep _, by decide, by decide +kernel⟩,
    ⟨signalMessage 0x8000#16, _, step_afterStep _, by decide, by decide +kernel⟩⟩

theorem test_witness_PortsShowTheListFunction :
    3 ≤ 3 ∧ LanesCarry (0x563412#24 : BitVec (8 * 3)) ([0x12#8, 0x34#8, 0x56#8, 0x78#8].take 3) ∧
      3 < [0x12#8, 0x34#8, 0x56#8, 0x78#8].length ∧ 3 ≤ (3#2 : BitVec (Nat.clog 2 (3 + 1))).toNat := by
  refine ⟨le_refl _, ?_, by decide, ?_⟩
  · intro i b h
    match i, h with
    | 0, h => cases h; rfl
    | 1, h => cases h; rfl
    | 2, h => cases h; rfl
  · decide

theorem test_witness_PortsShowTheListFunction_belowThree :
    [0xFF#8, 0x78#8].length < 3 ∧ decodeList [0xFF#8, 0x78#8] = none ∧ ([] : List Byte).length < 3 := by decide

theorem test_witness_PortsShowTheListFunction_short :
    LanesCarry (0x563412#24 : BitVec (8 * 3)) ([0x12#8, 0x34#8, 0x56#8].take 3) ∧
      [0x12#8, 0x34#8, 0x56#8].length ≤ 3 ∧
      (3#2 : BitVec (Nat.clog 2 (3 + 1))).toNat = [0x12#8, 0x34#8, 0x56#8].length := by
  refine ⟨?_, by decide, by decide⟩
  intro i b h
  match i, h with
  | 0, h => cases h; rfl
  | 1, h => cases h; rfl
  | 2, h => cases h; rfl

theorem test_witness_ListsAgree :
    ([0x00#8, 0x34#8, 0x56#8] : List Byte)[1]? = ([0xFF#8, 0x34#8, 0x56#8, 0x78#8] : List Byte)[1]? ∧
      ([0x00#8, 0x34#8, 0x56#8] : List Byte)[2]? = ([0xFF#8, 0x34#8, 0x56#8, 0x78#8] : List Byte)[2]? := by decide

theorem test_witness_ErrorConditionsEndInAbsence :
    ∃ s s' t t', step s = .next t ∧ step s' = .next t' ∧ t.present = false ∧ t'.present = false ∧
      errorCause t.nets = some .inputTooShort ∧ errorCause t'.nets = some .unavailable :=
  ⟨withInputs 2#4 0x0000000000780000#64, signalMessage 0xFFFF#16, _, _, step_afterStep _, step_afterStep _,
    by decide +kernel, by decide +kernel, by decide +kernel, by decide +kernel⟩

theorem test_witness_EarlierResultsLeaveNoMark :
    ∃ s t p outs, runEvaluations s [p] = .next (t, outs) ∧ t.present = false := by
  refine ⟨State.reset, afterStep (signalMessage 0xFFFF#16), (signalMessage 0xFFFF#16).inputs,
    [(afterStep (signalMessage 0xFFFF#16)).outputs], ?_, by decide +kernel⟩
  have h : evaluate State.reset (signalMessage 0xFFFF#16).inputs = .next (afterStep (signalMessage 0xFFFF#16)) :=
    step_afterStep (signalMessage 0xFFFF#16)
  rw [runEvaluations, h]
  rfl

theorem test_witness_RunIsTheListOfResults : [(⟨3#4, 0#64⟩ : InputPorts)].getLast? = some ⟨3#4, 0#64⟩ := by decide

end Sys2Proof.Tests
end

section
/-! PROOFS. The family 10_state.md: the state is the value on the ports and nothing else (R10), and the outputs follow the
inputs at once (R19). First what one operation does to the state, then the two forms a state can have (`Settled`,
`NetsCanonical`), then the four statements. -/

namespace Sys2Proof.Machine

/-! ### What an operation does to the state -/

theorem exec_decode (len : BitVec Config.lenW) (a b c : Byte) (r : BitVec Config.restW) (s : State) :
    exec (.decode len a b c r) s =
      .next ((s.setNets (evalNets len (joinLanes a b c r))).select
        (evalNets len (joinLanes a b c r)).valid (evalNets len (joinLanes a b c r)).mphFull) := rfl

theorem exec_lenchk (s : State) : exec .lenchk s = .next (s.setLenOk (lenOkNet s.msgLen)) := rfl

theorem exec_extract (s : State) : exec .extract s = .next (s.setBytes (lane s.msgData 1) (lane s.msgData 2)) := rfl

theorem exec_le16s (s : State) :
    exec .le16s s = .next (s.setRaw (joinLittleEndian s.nets.b1 s.nets.b2) (joinLittleEndian s.nets.b1 s.nets.b2)) := rfl

theorem exec_fx2f (s : State) : exec .fx2f s = .next (s.setKph (kphNet s.nets.raw)) := rfl

theorem exec_range (s : State) :
    exec .range s = .next (s.setRange (overNet s.nets.kph) (negNet s.nets.rawU) (sentinelNet s.nets.rawU)
      (validNet s.nets.lenOk (negNet s.nets.rawU) (overNet s.nets.kph))) := rfl

theorem exec_kph2mph (s : State) : exec .kph2mph s = .next (s.setMphFull (mphFullNet s.nets.kph)) := rfl

theorem exec_out (s : State) : exec .out s = .next (s.select s.nets.valid s.nets.mphFull) := rfl

/-- The inversion of an operation: it gives the nets a value, or drives the output ports by the selection of
43_convert.md R104, or does the one and then the other. -/
theorem exec_cases {i : Instr} {s t : State} (h : exec i s = .next t) :
    (∃ n, t = s.setNets n) ∨ (∃ b v, t = s.select b v) ∨ (∃ n b v, t = (s.setNets n).select b v) := by
  cases i with
  | decode len a b c r => rw [exec_decode] at h; cases h; exact .inr (.inr ⟨_, _, _, rfl⟩)
  | lenchk => rw [exec_lenchk] at h; cases h; exact .inl ⟨_, rfl⟩
  | extract => rw [exec_extract] at h; cases h; exact .inl ⟨_, rfl⟩
  | le16s => rw [exec_le16s] at h; cases h; exact .inl ⟨_, rfl⟩
  | fx2f => rw [exec_fx2f] at h; cases h; exact .inl ⟨_, rfl⟩
  | range => rw [exec_range] at h; cases h; exact .inl ⟨_, rfl⟩
  | kph2mph => rw [exec_kph2mph] at h; cases h; exact .inl ⟨_, rfl⟩
  | out => rw [exec_out] at h; cases h; exact .inr (.inl ⟨_, _, rfl⟩)

/-! ### Settled states -/

theorem settled_ofInputs (p : InputPorts) : Settled (State.ofInputs p) := ⟨rfl, rfl⟩

/-- The settled states are the states of an input. -/
theorem settled_iff_eq_ofInputs (s : State) : Settled s ↔ s = State.ofInputs s.inputs := by
  constructor
  · rintro ⟨hp, ho⟩
    exact State.ext_ports rfl rfl hp ho
  · intro h
    rw [h]
    exact settled_ofInputs _

theorem step_ofInputs (p : InputPorts) : step (State.ofInputs p) = .next (State.ofInputs p) := step_eq _

/-- In a settled state a stage writes the values that stand on its nets and ports already. -/
theorem exec_stage_of_settled {s : State} (hs : Settled s) : ∀ i ∈ stagesInOrder, exec i s = .next s := by
  obtain ⟨hp, ho⟩ := hs
  have hn : s.nets = evalNets s.msgLen s.msgData := State.nets_of_probe hp
  have stays {n : Nets} (h : n = evalNets s.msgLen s.msgData) : (.next (s.setNets n) : StepOutcome) = .next s := by
    rw [State.setNets_self hp h]
  intro i hi
  cases i with
  | decode len a b c r => simp [stagesInOrder] at hi
  | lenchk => rw [exec_lenchk, State.setLenOk, hn]; exact stays rfl
  | extract => rw [exec_extract, State.setBytes, hn]; exact stays rfl
  | le16s => rw [exec_le16s, State.setRaw, hn]; exact stays rfl
  | fx2f => rw [exec_fx2f, State.setKph, hn]; exact stays rfl
  | range => rw [exec_range, State.setRange, hn]; exact stays rfl
  | kph2mph => rw [exec_kph2mph, State.setMphFull, hn]; exact stays rfl
  | out =>
    have hsel : s.select s.nets.valid s.nets.mphFull = s := by
      refine State.ext_ports (State.select_msgLen ..) (State.select_msgData ..) (State.select_probe ..) ?_
      rw [State.select_outputs, ho, hn]
      rfl
    rw [exec_out, hsel]

/-! ### The canonical form of the model's own field -/

theorem netsCanonical_ofInputs (p : InputPorts) : NetsCanonical (State.ofInputs p) := by
  simp [NetsCanonical]

theorem netsCanonical_setNets (s : State) (n : Nets) : NetsCanonical (s.setNets n) := by
  rw [NetsCanonical, State.setNets_probe, State.setNets_msgLen, State.setNets_msgData]
  split
  · exact (Option.some_ne_none _).symm
  · next hn => exact fun h => hn (Option.some.inj h)

theorem netsCanonical_select_iff (s : State) (b : Bool) (v : F64) : NetsCanonical (s.select b v) ↔ NetsCanonical s := by
  simp only [NetsCanonical, State.select_probe, State.select_msgLen, State.select_msgData]

theorem exec_netsCanonical {i : Instr} {s t : State} (hs : NetsCanonical s) (h : exec i s = .next t) :
    NetsCanonical t := by
  obtain ⟨n, rfl⟩ | ⟨b, v, rfl⟩ | ⟨n, b, v, rfl⟩ := exec_cases h
  · exact netsCanonical_setNets s n
  · exact (netsCanonical_select_iff s b v).2 hs
  · exact (netsCanonical_select_iff _ b v).2 (netsCanonical_setNets s n)

theorem step_netsCanonical {s t : State} (h : step s = .next t) : NetsCanonical t := by
  rw [step_next h]
  exact netsCanonical_ofInputs _

/-- In canonical form the model's own field is a function of the input ports and the nets: the one `State.setNets` computes. -/
theorem probe_of_netsCanonical {s : State} (hs : NetsCanonical s) :
    s.probe = if s.nets = evalNets s.msgLen s.msgData then none else some s.nets := by
  cases hp : s.probe with
  | none => rw [if_pos (State.nets_of_probe hp)]
  | some n =>
    have hnets : s.nets = n := by rw [State.nets, hp, Option.getD_some]
    have hforeign : n ≠ evalNets s.msgLen s.msgData := fun hn => hs (by rw [hp, hn])
    rw [hnets, if_neg hforeign]

/-- States in canonical form with the same ports and nets are the same state. -/
theorem eq_of_netsCanonical {s t : State} (hs : NetsCanonical s) (ht : NetsCanonical t) (hi : s.inputs = t.inputs)
    (ho : s.outputs = t.outputs) (hn : s.nets = t.nets) : s = t := by
  have hl : s.msgLen = t.msgLen := congrArg InputPorts.msgLen hi
  have hd : s.msgData = t.msgData := congrArg InputPorts.msgData hi
  have hp : s.probe = t.probe := by rw [probe_of_netsCanonical hs, probe_of_netsCanonical ht, hn, hl, hd]
  exact State.ext_ports hl hd hp ho

/-! ### The statements -/

/-- Settles O29: a settled state is the state of its inputs, which a step gives again, and each stage writes what is there. -/
theorem settledStateIsFixed : Obligations.SettledStateIsFixed := by
  intro s hs
  refine ⟨?_, exec_stage_of_settled hs⟩
  rw [step_eq, ← (settled_iff_eq_ofInputs s).1 hs]

/-- Settles O41, by what a step can do: it gives the state of its inputs. -/
theorem stepHoldsNothingButTheInputs : Obligations.StepHoldsNothingButTheInputs := by
  intro s
  refine ⟨by rw [State.drive_eq, step_eq], fun t h => ?_⟩
  have ht : Settled t := step_next h ▸ settled_ofInputs s.inputs
  exact ⟨ht.1, ht⟩

/-- Settles O42: the form holds of every state of an input, and writing nets restores it. -/
theorem netsAreHeldOnlyWhenForeign : Obligations.NetsAreHeldOnlyWhenForeign := by
  refine ⟨?_, fun _ p => netsCanonical_ofInputs p, fun _ _ _ => exec_netsCanonical, fun _ _ => step_netsCanonical,
    fun _ _ => eq_of_netsCanonical⟩
  rw [State.reset_eq]
  exact netsCanonical_ofInputs _

/-- Settles O40: driving the inputs gives their state, whatever the state before. -/
theorem outputsFollowTheInputs : Obligations.OutputsFollowTheInputs := by
  intro s p
  rw [State.drive_eq]
  exact ⟨State.ofInputs_inputs p, State.ofInputs_outputs p, State.ofInputs_nets p, settled_ofInputs p,
    fun s' => State.drive_eq s' p, step_ofInputs p⟩

end Sys2Proof.Machine
end

section
/-! PROOFS. The family 20_memory.md: the bits of a message byte (R34), and that nothing writes the message (R37). -/

namespace Sys2Proof.Machine

/-! ### A lane, bit by bit and as a number -/

theorem lane_msb {dw : Nat} (d : BitVec dw) (i : Nat) : (lane d i).msb = d.getLsbD (8 * i + 7) := by
  rw [BitVec.msb_eq_getLsbD_last, lane_getLsbD]
  simp

theorem lane_toNat {dw : Nat} (d : BitVec dw) (i : Nat) : (lane d i).toNat = d.toNat / 2 ^ (8 * i) % 256 := by
  rw [lane, BitVec.extractLsb'_toNat, Nat.shiftRight_eq_div_pow]

/-- Settles O5: the three readings of a lane, its bits, its most significant bit and its number. -/
theorem bitsOfALane : Obligations.BitsOfALane := by
  intro s i k _ hk
  have hbit : (lane s.msgData i).getLsbD k = s.msgData.getLsbD (8 * i + k) := by
    rw [lane_getLsbD, decide_eq_true hk, Bool.true_and]
  exact ⟨hbit, lane_msb s.msgData i, lane_toNat s.msgData i⟩

/-! ### What leaves the message as it is -/

/-- The message is a function of the two input ports, so a state with the same ports has the same message. -/
theorem sameMessage_of_ports {s t : State} (hl : t.msgLen = s.msgLen) (hd : t.msgData = s.msgData) : SameMessage s t :=
  ⟨hl, hd, memRead_congr hl hd⟩

theorem sameMessage_trans {s t u : State} (hst : SameMessage s t) (htu : SameMessage t u) : SameMessage s u := by
  obtain ⟨hl, hd, _⟩ := hst
  obtain ⟨hl', hd', _⟩ := htu
  exact sameMessage_of_ports (hl'.trans hl) (hd'.trans hd)

theorem sameMessage_setNets (s : State) (n : Nets) : SameMessage s (s.setNets n) :=
  sameMessage_of_ports (State.setNets_msgLen s n) (State.setNets_msgData s n)

theorem sameMessage_select (s : State) (b : Bool) (v : F64) : SameMessage s (s.select b v) :=
  sameMessage_of_ports (State.select_msgLen s b v) (State.select_msgData s b v)

theorem exec_sameMessage {i : Instr} {s t : State} (h : exec i s = .next t) : SameMessage s t := by
  obtain ⟨n, rfl⟩ | ⟨b, v, rfl⟩ | ⟨n, b, v, rfl⟩ := exec_cases h
  · exact sameMessage_setNets s n
  · exact sameMessage_select s b v
  · exact sameMessage_trans (sameMessage_setNets s n) (sameMessage_select _ b v)

/-- A step is one operation, the one on the input ports, so it writes the message no more than an operation does. -/
theorem step_sameMessage {s t : State} (h : step s = .next t) : SameMessage s t :=
  exec_sameMessage (i := fetchInstr s) h

/-- Settles O8, by what an operation can do: it writes nets and output ports only. -/
theorem noOperationWritesTheMessage : Obligations.NoOperationWritesTheMessage :=
  ⟨fun _ _ _ => exec_sameMessage, fun _ _ => step_sameMessage⟩

end Sys2Proof.Machine
end

section
/-! PROOFS. Support for 30_encoding.md and the files after it: `rne64` reads the exact value only, the fields of `kph` for every
`raw` (41_scale.md R81), `mph_full` as one rounding of an integer product (43_convert.md R102), the comparator that never
fires (42_range.md R92), and from these the outputs as a function of the length and the signal. -/

namespace Sys2Proof.Machine

/-! ### Rounding depends on the exact value, not on how it is written as an integer and an exponent -/

theorem bitLength_mul_two_pow {N : Nat} (hN : N ≠ 0) (j : Nat) : bitLength (N * 2 ^ j) = bitLength N + j := by
  have h0 := bitLength_pos hN
  have hlow : 2 ^ (bitLength N - 1 + j) ≤ N * 2 ^ j := by
    rw [pow_add]
    exact Nat.mul_le_mul_right _ (two_pow_bitLength_le hN)
  have hup : N * 2 ^ j < 2 ^ (bitLength N - 1 + j + 1) := by
    have e : bitLength N - 1 + j + 1 = bitLength N + j := by omega
    rw [e, pow_add]
    exact Nat.mul_lt_mul_of_pos_right (lt_two_pow_bitLength N) (Nat.two_pow_pos j)
  rw [bitLength_eq hlow hup]
  omega

theorem roundShift_zero (N : Nat) : roundShift N 0 = N := by simp [roundShift]

/-- Zeros below the bits that are kept or tested change neither the quotient nor the tie. -/
theorem roundShift_mul_two_pow (N sh j : Nat) : roundShift (N * 2 ^ j) (sh + j) = roundShift N sh := by
  have hj := Nat.two_pow_pos j
  have hq : (N * 2 ^ j) >>> (sh + j) = N >>> sh := by
    rw [Nat.shiftRight_eq_div_pow, Nat.shiftRight_eq_div_pow, pow_add, Nat.mul_div_mul_right _ _ hj]
  have hr : N * 2 ^ j % 2 ^ (sh + j) = N % 2 ^ sh * 2 ^ j := by rw [pow_add, Nat.mul_mod_mul_right]
  unfold roundShift
  rw [hq, hr]
  cases sh with
  | zero => simp [Nat.mod_one, (Nat.two_pow_pos (j - 1)).ne]
  | succ k =>
    have e : k + 1 + j - 1 = k + j := by omega
    have hpos : 0 < k + 1 + j := by omega
    simp only [e, pow_add _ k, Nat.mul_lt_mul_right hj, Nat.mul_left_inj hj.ne', hpos, Nat.succ_pos, Nat.add_sub_cancel]

/-- The two writings `N × 2^k` and `(N × 2^j) × 2^(k − j)` of one rational round to one pattern (00_scope.md section 5). -/
theorem rne64_mul_two_pow (s : Bool) {N : Nat} (hN : N ≠ 0) (j : Nat) (k : Int) :
    rne64 s (N * 2 ^ j) (k - j) = rne64 s N k := by
  have hunit : k - j + (bitLength (N * 2 ^ j) : Int) - 53 = k + bitLength N - 53 := by
    rw [bitLength_mul_two_pow hN]
    push_cast
    ring
  simp only [rne64, hunit]
  generalize max (k + (bitLength N : Int) - 53) (-1074) = unit
  congr 3
  rcases le_or_gt k unit with h | h
  · have e : (unit - (k - j)).toNat = (unit - k).toNat + j := by omega
    rw [if_pos (by omega), if_pos h, e, roundShift_mul_two_pow]
  · rw [if_neg (not_le.2 h)]
    obtain ⟨d, rfl⟩ : ∃ d : Nat, k = unit + d := ⟨(k - unit).toNat, by omega⟩
    have ed : (unit + d - unit).toNat = d := by omega
    rw [ed, Nat.shiftLeft_eq N d]
    rcases le_or_gt d j with hd | hd
    · have e : (unit - (unit + d - j)).toNat = 0 + (j - d) := by omega
      have ej : N * 2 ^ j = N * 2 ^ d * 2 ^ (j - d) := by rw [mul_assoc, ← pow_add, Nat.add_sub_cancel' hd]
      rw [if_pos (by omega), e, ej, roundShift_mul_two_pow, roundShift_zero]
    · have e : (unit + d - j - unit).toNat = d - j := by omega
      rw [if_neg (by omega), e, Nat.shiftLeft_eq, mul_assoc, ← pow_add, Nat.add_sub_cancel' hd.le]

/-! ### The fields of `kph` -/

theorem rawMagnitude_eq_zero_iff (raw : Word16) : rawMagnitude raw = 0 ↔ raw = 0#16 := by
  rw [rawMagnitude, Int.natAbs_eq_zero, sint16_eq_toInt, ← BitVec.toInt_inj, BitVec.toInt_zero]

theorem rawMagnitude_of_nonneg {raw : Word16} (hn : 0 ≤ sint16 raw) : rawMagnitude raw = (sint16 raw).toNat := by
  rw [rawMagnitude]
  omega

theorem getLsbD_15_of_nonneg {raw : Word16} (hn : 0 ≤ sint16 raw) : raw.getLsbD 15 = false := by
  rw [← Bool.not_eq_true, ← sint16_neg_iff, not_lt]
  exact hn

theorem nonneg_of_getLsbD_15 {raw : Word16} (hs : raw.getLsbD 15 = false) : 0 ≤ sint16 raw := by
  rw [← not_lt, sint16_neg_iff, Bool.not_eq_true]
  exact hs

/-- The position of the leading one of `|raw|`, the `p` of 41_scale.md R81. -/
def leadingOne (raw : Word16) : Nat := bitLength (rawMagnitude raw) - 1

section
variable {raw : Word16} (h : raw ≠ 0#16)
include h

theorem rawMagnitude_bounds : 2 ^ leadingOne raw ≤ rawMagnitude raw ∧ rawMagnitude raw < 2 ^ (leadingOne raw + 1) := by
  have hm : rawMagnitude raw ≠ 0 := mt (rawMagnitude_eq_zero_iff raw).1 h
  have e : leadingOne raw + 1 = bitLength (rawMagnitude raw) := Nat.sub_add_cancel (bitLength_pos hm)
  rw [e]
  exact ⟨two_pow_bitLength_le hm, lt_two_pow_bitLength _⟩

theorem leadingOne_lt {k : Nat} (hm : rawMagnitude raw < 2 ^ k) : leadingOne raw < k :=
  (Nat.pow_lt_pow_iff_right (by norm_num)).1 ((rawMagnitude_bounds h).1.trans_lt hm)

theorem leadingOne_le : leadingOne raw ≤ 15 := by
  have hm := rawMagnitude_le raw
  exact Nat.le_of_lt_succ (leadingOne_lt h (k := 16) (by omega))

theorem leadingOne_le_of_nonneg (hn : 0 ≤ sint16 raw) : leadingOne raw ≤ 14 := by
  obtain ⟨_, hmax⟩ := sint16_bounds raw
  have hm := rawMagnitude_of_nonneg hn
  exact Nat.le_of_lt_succ (leadingOne_lt h (k := 15) (by omega))

theorem two_pow_leadingOne_mul : 2 ^ leadingOne raw * 2 ^ (52 - leadingOne raw) = 2 ^ 52 := by
  have hp := leadingOne_le h
  rw [← pow_add, Nat.add_sub_cancel' (by omega)]

/-- The significand of `kph` is `|raw|` shifted so that its leading one stands on bit 52. -/
theorem two_pow_52_add_kph_fraction :
    2 ^ 52 + (rawMagnitude raw - 2 ^ leadingOne raw) * 2 ^ (52 - leadingOne raw) =
      rawMagnitude raw * 2 ^ (52 - leadingOne raw) := by
  obtain ⟨hlow, _⟩ := rawMagnitude_bounds h
  rw [← two_pow_leadingOne_mul h, ← Nat.add_mul, Nat.add_sub_cancel' hlow]

theorem kph_fraction_lt : (rawMagnitude raw - 2 ^ leadingOne raw) * 2 ^ (52 - leadingOne raw) < 2 ^ 52 := by
  obtain ⟨hlow, hup⟩ := rawMagnitude_bounds h
  rw [← two_pow_leadingOne_mul h]
  exact Nat.mul_lt_mul_of_pos_right (by rw [pow_succ] at hup; omega) (Nat.two_pow_pos _)

theorem kphNet_eq_pack : kphNet raw =
    f64Pack (raw.getLsbD 15) (1015 + leadingOne raw)
      ((rawMagnitude raw - 2 ^ leadingOne raw) * 2 ^ (52 - leadingOne raw)) := by
  have e : 1023 + leadingOne raw - 8 = 1015 + leadingOne raw := by omega
  rw [← e, kphNet, if_neg h]
  rfl

theorem f64Sign_kphNet : f64Sign (kphNet raw) = raw.getLsbD 15 := by
  have hp := leadingOne_le h
  rw [kphNet_eq_pack h, f64Sign_pack _ (by omega) (kph_fraction_lt h)]

theorem f64Exp_kphNet : f64Exp (kphNet raw) = 1015 + leadingOne raw := by
  have hp := leadingOne_le h
  rw [kphNet_eq_pack h, f64Exp_pack _ (by omega) (kph_fraction_lt h)]

theorem f64Frac_kphNet :
    f64Frac (kphNet raw) = (rawMagnitude raw - 2 ^ leadingOne raw) * 2 ^ (52 - leadingOne raw) := by
  have hp := leadingOne_le h
  rw [kphNet_eq_pack h, f64Frac_pack _ (by omega) (kph_fraction_lt h)]

theorem f64Significand_kphNet : f64Significand (kphNet raw) = rawMagnitude raw * 2 ^ (52 - leadingOne raw) := by
  rw [f64Significand, f64Exp_kphNet h, if_neg (by omega), f64Frac_kphNet h, two_pow_52_add_kph_fraction h]

theorem f64Unit_kphNet : f64Unit (kphNet raw) = (leadingOne raw : Int) - 60 := by
  rw [f64Unit, f64Exp_kphNet h, if_neg (by omega)]
  push_cast
  ring

theorem f64Class_kphNet : f64Class (kphNet raw) = .normal := by
  have hp := leadingOne_le h
  rw [f64Class, f64Exp_kphNet h, if_neg (by omega), if_neg (by omega)]

/-! ### `mph_full` as one rounding -/

/-- The product of `kph` and the constant is `|raw| × C × 2^−61`, rounded once (43_convert.md R102). -/
theorem mphFullNet_kphNet :
    mphFullNet (kphNet raw) = rne64 (raw.getLsbD 15) (rawMagnitude raw * mphSignificand) (-61) := by
  have hp := leadingOne_le h
  have hm : rawMagnitude raw ≠ 0 := mt (rawMagnitude_eq_zero_iff raw).1 h
  have hsign : f64Sign Config.mphPerKph = false := by decide
  have hsig : f64Significand Config.mphPerKph = mphSignificand := by decide
  have hunit : f64Unit Config.mphPerKph = -53 := by decide
  have hN : rawMagnitude raw * 2 ^ (52 - leadingOne raw) * mphSignificand =
      rawMagnitude raw * mphSignificand * 2 ^ (52 - leadingOne raw) := by ring
  have hk : (leadingOne raw : Int) - 60 + -53 = -61 - ((52 - leadingOne raw : Nat) : Int) := by omega
  rw [mphFullNet, f64Class_kphNet h]
  simp only [f64MulFinite]
  rw [hsign, hsig, hunit, f64Sign_kphNet h, f64Significand_kphNet h, f64Unit_kphNet h, Bool.bne_false, hN, hk,
    rne64_mul_two_pow _ (mul_ne_zero hm (by decide))]

end

theorem mphFullNet_kphNet_of_nonneg {raw : Word16} (hn : 0 ≤ sint16 raw) :
    mphFullNet (kphNet raw) = roundedMph (sint16 raw).toNat := by
  by_cases h : raw = 0#16
  · subst h
    have hc : f64Class (kphNet 0#16) = .zero := by decide
    have hs : f64Sign (kphNet 0#16) = false := by decide
    rw [mphFullNet, hc, hs]
    rfl
  · have hm := rawMagnitude_of_nonneg hn
    have hm0 : (sint16 raw).toNat ≠ 0 := hm ▸ mt (rawMagnitude_eq_zero_iff raw).1 h
    rw [mphFullNet_kphNet h, getLsbD_15_of_nonneg hn, hm, roundedMph, if_neg hm0]

/-! ### The comparator never fires -/

theorem f64Key_low (s : Bool) {m : Nat} (h : m < 2 ^ 63) :
    f64Key (BitVec.ofBool s ++ BitVec.ofNat 63 m) = if s then -(m : Int) else m := by
  have hlow : ((BitVec.ofBool s ++ BitVec.ofNat 63 m).extractLsb' 0 63).toNat = m := by
    rw [BitVec.extractLsb'_toNat, toNat_low s h]
    cases s <;> simp <;> omega
  rw [f64Key, f64Sign_low s h, hlow]

theorem f64IsNan_kphNet (raw : Word16) : f64IsNan (kphNet raw) = false := by
  by_cases h : raw = 0#16
  · subst h; decide
  · have hp := leadingOne_le h
    have hexp : f64Exp (kphNet raw) ≠ 2047 := by rw [f64Exp_kphNet h]; omega
    simp [f64IsNan, hexp]

/-- A `kph` that is not negative has an exponent field below 1030, that of the ceiling. -/
theorem f64Key_kphNet_lt (raw : Word16) : f64Key (kphNet raw) < 1030 * 2 ^ 52 := by
  by_cases h : raw = 0#16
  · subst h; decide
  · have hp := leadingOne_le h
    have hf := kph_fraction_lt h
    rw [kphNet_eq_pack h, f64Pack_eq_low _ (by omega) hf, f64Key_low _ (by omega)]
    cases hs : raw.getLsbD 15 with
    | true => rw [if_pos rfl]; omega
    | false =>
      have hp' := leadingOne_le_of_nonneg h (nonneg_of_getLsbD_15 hs)
      rw [if_neg Bool.false_ne_true]
      omega

theorem overNet_kphNet (raw : Word16) : overNet (kphNet raw) = false := by
  have hkey := f64Key_kphNet_lt raw
  have hmax : (1030 * 2 ^ 52 : Int) ≤ f64Key Config.kphMax := by decide
  have hnan : f64IsNan Config.kphMax = false := by decide
  rw [overNet, f64Gt, f64IsNan_kphNet, hnan, Bool.or_false, if_neg Bool.false_ne_true, decide_eq_false_iff_not]
  omega

theorem negNet_eq (raw : Word16) : negNet raw = decide (sint16 raw < 0) := by
  rw [Bool.eq_iff_iff, decide_eq_true_iff, sint16_neg_iff, negNet]

/-! ### The outputs as a function of the length and the signal -/

section
variable {lw dw : Nat} (len : BitVec lw) (d : BitVec dw)

theorem evalNets_valid_iff :
    (evalNets len d).valid = true ↔ 3 ≤ len.toNat ∧ 0 ≤ sint16 (evalNets len d).raw := by
  rw [evalNets_valid, evalNets_raw, overNet_kphNet, negNet_eq, validNet, lenOkNet]
  simp

/-- All that the output ports can show: the speed of a message long enough with a signal that is not negative, else absence. -/
theorem evalOutputs_eq : evalOutputs len d = encodeResult
    (if 3 ≤ len.toNat ∧ 0 ≤ sint16 (evalNets len d).raw then some (roundedMph (sint16 (evalNets len d).raw).toNat)
      else none) := by
  rw [evalOutputs, resultOf]
  by_cases h : 3 ≤ len.toNat ∧ 0 ≤ sint16 (evalNets len d).raw
  · rw [if_pos h, if_pos ((evalNets_valid_iff len d).2 h)]
    obtain ⟨_, hn⟩ := h
    rw [evalNets_mphFull, ← evalNets_raw len d, mphFullNet_kphNet_of_nonneg hn]
  · rw [if_neg h, if_neg (mt (evalNets_valid_iff len d).1 h)]

theorem evalOutputs_present_iff :
    (evalOutputs len d).present = true ↔ 3 ≤ len.toNat ∧ 0 ≤ sint16 (evalNets len d).raw := by
  rw [evalOutputs_eq]
  split <;> simp_all

variable {len d}

theorem evalOutputs_mph_of_present (h : (evalOutputs len d).present = true) :
    (evalOutputs len d).mph = roundedMph (sint16 (evalNets len d).raw).toNat := by
  rw [evalOutputs_eq, if_pos ((evalOutputs_present_iff len d).1 h), encodeResult_some]

theorem evalOutputs_mph_of_absent (h : (evalOutputs len d).present = false) :
    (evalOutputs len d).mph = Config.absentBits := by
  have hc := mt (evalOutputs_present_iff len d).2 (Bool.not_eq_true _ ▸ h)
  rw [evalOutputs_eq, if_neg hc, encodeResult_none]

end

theorem settled_of_step {s t : State} (h : step s = .next t) : Settled t := step_next h ▸ settled_ofInputs s.inputs

/-- A present result is the speed of a raw value from 0 to 32767. -/
theorem mph_of_present {s : State} (hs : Settled s) (h : s.present = true) :
    ∃ n : Nat, n ≤ 32767 ∧ sint16 s.nets.raw = n ∧ s.mph = roundedMph n := by
  obtain ⟨hp, ho⟩ := hs
  have hpres : (evalOutputs s.msgLen s.msgData).present = true := by rw [← ho, State.outputs_present, h]
  obtain ⟨_, hn⟩ := (evalOutputs_present_iff ..).1 hpres
  obtain ⟨_, hmax⟩ := sint16_bounds (evalNets s.msgLen s.msgData).raw
  refine ⟨(sint16 (evalNets s.msgLen s.msgData).raw).toNat, by omega, ?_, ?_⟩
  · rw [State.nets_of_probe hp]
    omega
  · rw [← evalOutputs_mph_of_present hpres, ← ho, State.outputs_mph]

theorem mph_of_absent {s : State} (hs : Settled s) (h : s.present = false) : s.mph = Config.absentBits := by
  obtain ⟨_, ho⟩ := hs
  rw [← State.outputs_mph, ho]
  exact evalOutputs_mph_of_absent (by rw [← ho, State.outputs_present, h])

end Sys2Proof.Machine
end

section
/-! PROOFS. The family 30_encoding.md: decode and encode (R50 to R52), the stages in order (R59), the constants (R55), the range
invariant with the encoding of the result (R54, 44_decode.md R113), and a message as a byte list (R57). -/

namespace Sys2Proof.Machine

/-! ### Decode and encode -/

theorem rest_joinLanes (a b c : Byte) (r : BitVec Config.restW) :
    (joinLanes a b c r).extractLsb' 24 Config.restW = r := by
  ext k hk
  have h8 : ¬ 24 + k < 8 := by omega
  have h16 : ¬ 24 + k - 8 < 8 := by omega
  have h24 : ¬ 24 + k - 8 - 8 < 8 := by omega
  have e : 24 + k - 8 - 8 - 8 = k := by omega
  simp [← BitVec.getLsbD_eq_getElem, joinLanes, BitVec.getLsbD_append, hk, h8, h16, h24, e]

theorem decodeInputs_joinLanes (len : BitVec Config.lenW) (a b c : Byte) (r : BitVec Config.restW) :
    decodeInputs len (joinLanes a b c r) = .decode len a b c r := by
  rw [decodeInputs, lane_zero_joinLanes, lane_one_joinLanes, lane_two_joinLanes, rest_joinLanes]

theorem encode_decodeInputs (len : BitVec Config.lenW) (data : BitVec Config.dataW) :
    encode (decodeInputs len data) = some (len, data) := by
  rw [decodeInputs, encode, joinLanes_lanes]

theorem eq_decode_of_wellFormed {i : Instr} (h : i.wellFormed = true) : ∃ len a b c r, i = .decode len a b c r := by
  cases i with
  | decode len a b c r => exact ⟨len, a, b, c, r, rfl⟩
  | lenchk | extract | le16s | fx2f | range | kph2mph | out => exact absurd h (by decide)

/-- Settles O1: the only well-formed operation is DECODE, whose fields the lanes give back, and the lanes joined are the data. -/
theorem decodeAndEncodeAgree : Obligations.DecodeAndEncodeAgree := by
  refine ⟨fun i hi => ?_, encode_decodeInputs⟩
  obtain ⟨len, a, b, c, r, rfl⟩ := eq_decode_of_wellFormed hi
  exact ⟨len, joinLanes a b c r, rfl, decodeInputs_joinLanes len a b c r⟩

theorem encode_stage : ∀ i ∈ stagesInOrder, encode i = none := by
  simp [stagesInOrder, encode]

/-- What the ports select can be encoded again, and a stage cannot. -/
theorem decodeInputs_ne_stage (len : BitVec Config.lenW) (data : BitVec Config.dataW) :
    ∀ i ∈ stagesInOrder, decodeInputs len data ≠ i := by
  rintro i hi rfl
  have h := encode_stage _ hi
  rw [encode_decodeInputs] at h
  exact Option.some_ne_none _ h

/-- Settles O2: the decoder answers DECODE by its definition, for the ports and for a word of the table. -/
theorem everyInputSelectsDecode : Obligations.EveryInputSelectsDecode :=
  ⟨fun _ _ => ⟨_, _, _, _, rfl⟩, fun _ w => ⟨Nat.and_zero w, _, _, _, _, _, rfl⟩,
    fun i hi => ⟨encode_stage i hi, fun len data => decodeInputs_ne_stage len data i hi⟩⟩

/-- Settles O3, by running the decoder on the three messages. -/
theorem knownMessagesDecode : Obligations.KnownMessagesDecode := by
  unfold Obligations.KnownMessagesDecode
  decide

/-! ### The fields of a message -/

theorem fieldsOf_eq_none_iff (len : BitVec Config.lenW) (data : BitVec Config.dataW) :
    fieldsOf len data = none ↔ len.toNat < 3 := by
  simp [fieldsOf]

theorem eq_of_fieldsOf_eq_some {len : BitVec Config.lenW} {data : BitVec Config.dataW} {f : MsgFields}
    (h : fieldsOf len data = some f) :
    f = ⟨lane data 0, lane data 1, lane data 2,
      (List.range (min len.toNat 8 - 3)).map fun k => lane data (3 + k)⟩ := by
  rw [fieldsOf] at h
  split at h
  · cases h
  · exact (Option.some.inj h).symm

/-- The signal stands on bits `[23:8]` (30_encoding.md R50). -/
theorem joinLittleEndian_lanes {dw : Nat} (d : BitVec dw) :
    joinLittleEndian (lane d 1) (lane d 2) = d.extractLsb' 8 16 :=
  BitVec.extractLsb'_append_extractLsb'_eq_extractLsb' rfl

/-- Settles O6: a field is a lane, and a lane is a slice of the data. -/
theorem fieldsOfTheMessage : Obligations.FieldsOfTheMessage := by
  intro len data
  refine ⟨fieldsOf_eq_none_iff len data, fun f hf => ?_⟩
  obtain rfl := eq_of_fieldsOf_eq_some hf
  refine ⟨rfl, rfl, rfl, joinLittleEndian_lanes data, by simp, fun k hk => ?_⟩
  have hk' : k < min len.toNat 8 - 3 := by simpa using hk
  have hpos : 24 + 8 * k = 8 * (3 + k) := by ring
  rw [List.getElem?_map, List.getElem?_range hk', Option.map_some, lane, hpos]

/-! ### The stages in order -/

theorem performAll_cons {i : Instr} {s t : State} (h : exec i s = .next t) (is : List Instr) :
    performAll (i :: is) s = performAll is t := by
  rw [performAll, h]

/-- OUT on the nets of the input ports ends the evaluation: the state is that of its inputs. -/
theorem exec_out_of_probe {s : State} (hp : s.probe = none) : exec .out s = .next (State.ofInputs s.inputs) := by
  have hn := State.nets_of_probe hp
  rw [exec_out, hn]
  congr 1
  refine State.ext_ports (State.select_msgLen ..) (State.select_msgData ..) ?_ ?_
  · rw [State.select_probe, hp, State.ofInputs_probe]
  · rw [State.select_outputs, State.ofInputs_outputs, State.inputs_msgLen, State.inputs_msgData, evalOutputs, resultOf]

/-- Settles O19: the first six stages leave every net as the input ports give it, whatever stood there before, and OUT then shows
the result. -/
theorem stagesInOrderAreDecode : Obligations.StagesInOrderAreDecode := by
  intro s
  rw [stagesInOrder, performAll_cons (exec_lenchk _), performAll_cons (exec_extract _), performAll_cons (exec_le16s _),
    performAll_cons (exec_fx2f _), performAll_cons (exec_range _), performAll_cons (exec_kph2mph _),
    performAll_cons (exec_out_of_probe _), performAll, step_eq]
  · simp [State.inputs]
  · rw [State.setMphFull, State.setNets_probe, if_pos]
    simp [evalNets]

/-! ### The constants -/

theorem f64Val_of_fields {b : F64} {c : Nat} {u : Int} (hs : f64Sign b = false) (hc : f64Significand b = c)
    (hu : f64Unit b = u) : f64Val b = (c : ℚ) * 2 ^ u := by
  rw [f64Val, hs, hc, hu, if_neg Bool.false_ne_true, one_mul]

theorem f64Val_zero : f64Val 0x0000000000000000#64 = 0 := by
  rw [f64Val_of_fields (c := 0) (by decide) (by decide) rfl, Nat.cast_zero, zero_mul]

theorem f64Val_scaleDiv : f64Val Config.scaleDiv = (0x10000000000000 : Nat) * 2 ^ (-44 : Int) :=
  f64Val_of_fields (by decide) (by decide) (by decide)

theorem f64Val_kphMax : f64Val Config.kphMax = (8831136656808477 : Nat) * 2 ^ (-45 : Int) :=
  f64Val_of_fields (by decide) (by decide) (by decide)

theorem f64Val_mphPerKph : f64Val Config.mphPerKph = (5596814209557516 : Nat) * 2 ^ (-53 : Int) :=
  f64Val_of_fields (by decide) (by decide) (by decide)

/-- Between two neighbouring multiples of `2^unit`, from `2^52` of them on, there is no finite pattern: the even one of the two is
a nearest pattern to the point half way between them. -/
theorem no_value_between (q : Nat) (unit : Int) (hq : 2 ^ 52 ≤ q) (c : F64) :
    f64Val c ≤ (q : ℚ) * 2 ^ unit ∨ ((q : ℚ) + 1) * 2 ^ unit ≤ f64Val c := by
  have hU : (0 : ℚ) < 2 ^ unit := zpow_pos (by norm_num) _
  have hdiv : ((q : ℚ) + 1 / 2) * 2 ^ unit / 2 ^ unit = q + 1 / 2 := mul_div_cancel_right₀ _ hU.ne'
  have hbig : (2 : ℚ) ^ (52 : Nat) * 2 ^ unit ≤ ((q : ℚ) + 1 / 2) * 2 ^ unit := by
    have : (2 : ℚ) ^ (52 : Nat) ≤ q := by exact_mod_cast hq
    exact mul_le_mul_of_nonneg_right (by linarith) hU.le
  obtain ⟨e, he, heven⟩ : ∃ e : Nat, ((e : ℚ) = q ∨ (e : ℚ) = q + 1) ∧ e % 2 = 0 := by
    rcases Nat.mod_two_eq_zero_or_one q with h | h
    · exact ⟨q, .inl rfl, h⟩
    · exact ⟨q + 1, .inr (by push_cast; rfl), by omega⟩
  have hdist : |(e : ℚ) - ((q : ℚ) + 1 / 2)| = 1 / 2 := by
    rcases he with he | he
    · rw [he, abs_of_neg] <;> linarith
    · rw [he, abs_of_pos] <;> linarith
  obtain ⟨hnear, _⟩ := nearest_of_unit (q := e) (unit := unit) (Q := ((q : ℚ) + 1 / 2) * 2 ^ unit)
    (by rw [hdiv, hdist]) (fun _ => heven) (.inr hbig) c (f64Sign c)
  have hhalf : |(e : ℚ) * 2 ^ unit - ((q : ℚ) + 1 / 2) * 2 ^ unit| = 1 / 2 * 2 ^ unit := by
    rw [← sub_mul, abs_mul, hdist, abs_of_pos hU]
  rw [hhalf, ← f64Val] at hnear
  rcases le_abs.1 hnear with h | h
  · right; linarith
  · left; linarith

/-- A pattern of value `q × 2^unit` is strictly the nearest to every number less than half a unit away. -/
theorem nearest_strict {q : Nat} {unit : Int} {v Q : ℚ} (hq : 2 ^ 52 < q) (hv : v = q * 2 ^ unit)
    (hQ : |v - Q| < 2 ^ unit / 2) {c : F64} (hne : f64Val c ≠ v) : |v - Q| < |f64Val c - Q| := by
  obtain ⟨p, rfl⟩ : ∃ p, q = p + 1 := ⟨q - 1, by omega⟩
  have hbelow := no_value_between p unit (by omega) c
  have habove := no_value_between (p + 1) unit (by omega) c
  push_cast at hv habove
  have hfar : f64Val c ≤ v - 2 ^ unit ∨ v + 2 ^ unit ≤ f64Val c := by
    rcases hbelow with h | h
    · left; linarith
    · rcases habove with h' | h'
      · exact absurd (le_antisymm (by linarith) (by linarith)) hne
      · right; linarith
  obtain ⟨h1, h2⟩ := abs_lt.1 hQ
  rw [lt_abs]
  rcases hfar with h | h
  · right; linarith
  · left; linarith

/-- Settles O20: the fields by evaluation, the values from them, and each literal less than half a unit from its constant. -/
theorem constantsAreTheNearestPatterns : Obligations.ConstantsAreTheNearestPatterns := by
  have hkph := f64Val_kphMax
  have hmph := f64Val_mphPerKph
  refine ⟨⟨by decide, by decide, by decide, ?_⟩,
    ⟨by decide, by decide, by decide, ?_⟩,
    ⟨by decide, by decide, by decide, ?_⟩,
    fun c _ => nearest_strict (by norm_num) hkph ?_, fun c _ => nearest_strict (by norm_num) hmph ?_, ?_, ?_, ?_⟩
  · rw [f64Val_scaleDiv]; norm_num
  · rw [hkph]; norm_num
  · rw [hmph]; norm_num
  · rw [hkph, abs_lt]; norm_num
  · rw [hmph, abs_lt]; norm_num
  · rw [hkph]; norm_num
  · rw [hkph]; norm_num
  · rw [hkph]; norm_num

/-! ### The range of a speed -/

/-- Rounding does not cross a finite pattern, upwards … -/
theorem val_le_of_isNearestEven {q : ℚ} {b v : F64} (h : IsNearestEven q b) (hv : f64IsFinite v = true)
    (hq : q ≤ f64Val v) : f64Val b ≤ f64Val v := by
  obtain ⟨_, hnear⟩ := h
  obtain ⟨hle, _⟩ := hnear v hv
  rw [abs_of_nonneg (sub_nonneg.2 hq)] at hle
  linarith [le_abs_self (f64Val b - q)]

/-- … or downwards. -/
theorem le_val_of_isNearestEven {q : ℚ} {b v : F64} (h : IsNearestEven q b) (hv : f64IsFinite v = true)
    (hq : f64Val v ≤ q) : f64Val v ≤ f64Val b := by
  obtain ⟨_, hnear⟩ := h
  obtain ⟨hle, _⟩ := hnear v hv
  rw [abs_of_nonpos (sub_nonpos.2 hq)] at hle
  linarith [neg_abs_le (f64Val b - q)]

theorem isNearestEven_roundedMph {n : Nat} (h0 : n ≠ 0) (hn : n ≤ 32768) :
    IsNearestEven ((n * mphSignificand : Nat) * 2 ^ (-61 : Int)) (roundedMph n) := by
  have hN : n * mphSignificand ≠ 0 := mul_ne_zero h0 (by decide)
  have hnat : n * mphSignificand ≤ 2 ^ 15 * (2 ^ 53 - 1) := Nat.mul_le_mul hn (by decide)
  have hle : ((n * mphSignificand : Nat) : ℚ) * 2 ^ (-61 : Int) ≤ (2 ^ 53 - 1) * 2 ^ (971 : Int) :=
    calc ((n * mphSignificand : Nat) : ℚ) * 2 ^ (-61 : Int)
        ≤ ((2 ^ 15 * (2 ^ 53 - 1) : Nat) : ℚ) * 2 ^ (-61 : Int) :=
          mul_le_mul_of_nonneg_right (by exact_mod_cast hnat) (by positivity)
      _ = (2 ^ 53 - 1) * 2 ^ (-46 : Int) := by norm_num
      _ ≤ (2 ^ 53 - 1) * 2 ^ (971 : Int) :=
          mul_le_mul_of_nonneg_left (zpow_le_zpow_right₀ (by norm_num) (by norm_num)) (by norm_num)
  obtain ⟨hnear, _⟩ := rne64_nearest false hN hle
  rw [if_neg Bool.false_ne_true, one_mul] at hnear
  rwa [roundedMph, if_neg h0]

theorem roundedMph_finite {n : Nat} (hn : n ≤ 32768) : f64IsFinite (roundedMph n) = true := by
  rcases Nat.eq_zero_or_pos n with rfl | h0
  · decide
  · exact (isNearestEven_roundedMph h0.ne' hn).1

theorem roundedMph_nonneg {n : Nat} (hn : n ≤ 32768) : 0 ≤ f64Val (roundedMph n) := by
  rcases Nat.eq_zero_or_pos n with rfl | h0
  · exact f64Val_zero.ge
  · have hnear := isNearestEven_roundedMph h0.ne' hn
    have hzero := le_val_of_isNearestEven hnear (v := 0x0000000000000000#64) (by decide)
      (by rw [f64Val_zero]; positivity)
    rwa [f64Val_zero] at hzero

/-- The speed of the greatest raw value, 32767 (43_convert.md R105). -/
def topSpeed : F64 := 0x4053E21E1649EE61#64

theorem f64Val_topSpeed : f64Val topSpeed = (5596643408342625 : Nat) * 2 ^ (-46 : Int) :=
  f64Val_of_fields (by decide) (by decide) (by decide)

theorem topSpeed_le_mphBound : f64Val topSpeed ≤ mphBound := by
  rw [f64Val_topSpeed, mphBound, Config.kphMaxLiteral, Config.mphPerKphLiteral]
  norm_num

theorem roundedMph_32767 : roundedMph 32767 = topSpeed := by decide

/-- The pattern just below the top speed already bounds the product of every smaller raw value. -/
theorem roundedMph_lt_topSpeed {n : Nat} (hn : n < 32767) : f64Val (roundedMph n) < f64Val topSpeed := by
  have hval : f64Val 0x4053E21E1649EE60#64 = (5596643408342624 : Nat) * 2 ^ (-46 : Int) :=
    f64Val_of_fields (by decide) (by decide) (by decide)
  have hpred : f64Val 0x4053E21E1649EE60#64 < f64Val topSpeed := by
    rw [hval, f64Val_topSpeed]; norm_num
  refine lt_of_le_of_lt ?_ hpred
  rcases Nat.eq_zero_or_pos n with rfl | h0
  · rw [roundedMph, if_pos rfl, f64Val_zero, hval]; positivity
  · refine val_le_of_isNearestEven (isNearestEven_roundedMph h0.ne' (by omega)) (by decide) ?_
    have hnat : n * mphSignificand ≤ 5596643408342624 * 2 ^ 15 := by
      rw [mphSignificand]
      omega
    calc ((n * mphSignificand : Nat) : ℚ) * 2 ^ (-61 : Int)
        ≤ ((5596643408342624 * 2 ^ 15 : Nat) : ℚ) * 2 ^ (-61 : Int) :=
          mul_le_mul_of_nonneg_right (by exact_mod_cast hnat) (by positivity)
      _ = f64Val 0x4053E21E1649EE60#64 := by rw [hval]; norm_num

theorem roundedMph_le_topSpeed {n : Nat} (hn : n ≤ 32767) : f64Val (roundedMph n) ≤ f64Val topSpeed := by
  rcases hn.lt_or_eq with h | rfl
  · exact (roundedMph_lt_topSpeed h).le
  · rw [roundedMph_32767]

theorem roundedMph_eq_topSpeed_iff {n : Nat} (hn : n ≤ 32767) : roundedMph n = topSpeed ↔ n = 32767 := by
  constructor
  · intro h
    by_contra hne
    have hlt := roundedMph_lt_topSpeed (by omega : n < 32767)
    rw [h] at hlt
    exact lt_irrefl _ hlt
  · rintro rfl
    exact roundedMph_32767

/-! ### What a step leaves on the output ports -/

theorem safeOutputs_of_settled {s : State} (hs : Settled s) : SafeOutputs s := by
  refine ⟨fun h => ?_, mph_of_absent hs⟩
  obtain ⟨n, hn, _, hmph⟩ := mph_of_present hs h
  rw [hmph]
  exact ⟨roundedMph_finite (by omega), roundedMph_nonneg (by omega),
    (roundedMph_le_topSpeed hn).trans topSpeed_le_mphBound⟩

/-- Settles O28: a step ends settled, and a settled state shows absence or the rounded speed of a raw value from 0 to 32767. -/
theorem stepEstablishesTheRangeInvariant : Obligations.StepEstablishesTheRangeInvariant := by
  intro s t h
  have hs := settled_of_step h
  refine ⟨hs, safeOutputs_of_settled hs, fun hp => ?_⟩
  obtain ⟨n, hn, hraw, hmph⟩ := mph_of_present hs hp
  have htop : f64Val topSpeed = 79.5330863687500055903001339174807071685791015625 := by
    rw [f64Val_topSpeed]; norm_num
  rw [hmph, hraw, ← htop]
  refine ⟨roundedMph_le_topSpeed hn, (roundedMph_eq_topSpeed_iff hn).trans ?_⟩
  omega

/-- Settles O33: a present speed is finite, and `ABSENT_BITS` is a NaN. -/
theorem encodingOfTheResult : Obligations.EncodingOfTheResult := by
  refine ⟨⟨by decide, by decide, by decide, by decide, rfl⟩, fun s t h => ?_⟩
  obtain ⟨hpresent, habsent⟩ := safeOutputs_of_settled (settled_of_step h)
  refine ⟨habsent, fun hp hmph => ?_⟩
  obtain ⟨hfin, _⟩ := hpresent hp
  have hnan : f64IsFinite Config.absentBits = false := by decide
  rw [hmph, hnan] at hfin
  exact Bool.false_ne_true hfin

/-- Settles O7: the length reaches the nets through `len_ok` alone. -/
theorem onlyLengthThreeMatters : Obligations.OnlyLengthThreeMatters := by
  intro s t h
  obtain rfl := step_next h
  refine ⟨fun hshort => ?_, fun hlong u hu => ?_⟩
  · rw [State.ofInputs_present, ← Bool.not_eq_true, evalOutputs_present_iff]
    rintro ⟨hlen, _⟩
    exact absurd hlen (not_le.2 hshort)
  · obtain rfl := step_next hu
    have hlen : lenOkNet 3#4 = lenOkNet s.msgLen := by
      rw [lenOkNet, lenOkNet, decide_eq_true hlong]
      rfl
    have hnets : evalNets 3#4 s.msgData = evalNets s.msgLen s.msgData := evalNets_congr _ _ hlen rfl rfl
    rw [State.drive_eq, State.ofInputs_inputs, State.ofInputs_outputs, State.ofInputs_outputs, State.inputs_msgLen,
      State.inputs_msgData, evalOutputs, evalOutputs, hnets]

/-! ### A message as a byte list -/

theorem decodeList_of_short {L : List Byte} (h : L.length < 3) : decodeList L = none := by
  match L, h with
  | [], _ => rfl
  | [_], _ => rfl
  | [_, _], _ => rfl

/-- With three bytes the ceiling is out of reach, so the sign of the signal alone decides (42_range.md R92). -/
theorem decodeList_cons (b0 b1 b2 : Byte) (L : List Byte) :
    decodeList (b0 :: b1 :: b2 :: L) =
      if 0 ≤ sint16 (joinLittleEndian b1 b2) then some (roundedMph (sint16 (joinLittleEndian b1 b2)).toNat)
      else none := by
  rw [decodeList]
  generalize joinLittleEndian b1 b2 = raw
  have hmax : (sint16 raw : ℚ) ≤ 32767 := by exact_mod_cast (sint16_bounds raw).2
  have hceil : (128 : ℚ) ≤ f64Val Config.kphMax := by
    rw [f64Val_kphMax]; norm_num
  have hover : ¬ f64Val Config.kphMax < (sint16 raw : ℚ) / 256 := by
    rw [not_lt, div_le_iff₀ (by norm_num)]
    linarith
  by_cases hn : 0 ≤ sint16 raw
  · rw [if_pos hn, if_neg (not_or.2 ⟨not_lt.2 hn, hover⟩)]
  · rw [if_neg hn, if_pos (.inl (not_le.1 hn))]

/-- The ports show the document's function of a list as soon as they tell whether it has three bytes, and carry the first three of
those it has (44_decode.md R114). -/
theorem evalOutputs_eq_decodeList {lw dw : Nat} {len : BitVec lw} {d : BitVec dw} {L : List Byte}
    (hlen : 3 ≤ len.toNat ↔ 3 ≤ L.length) (hlanes : LanesCarry d (L.take 3)) :
    evalOutputs len d = encodeResult (decodeList L) := by
  rw [evalOutputs_eq]
  simp only [hlen]
  match L with
  | b0 :: b1 :: b2 :: L =>
    have h1 : lane d 1 = b1 := hlanes 1 b1 rfl
    have h2 : lane d 2 = b2 := hlanes 2 b2 rfl
    rw [decodeList_cons, evalNets_raw, h1, h2]
    simp
  | [] | [_] | [_, _] => rw [decodeList_of_short (by simp), if_neg (by simp)]

theorem bytesToNat_lt (L : List Byte) : bytesToNat L < 2 ^ (8 * L.length) := by
  induction L with
  | nil => simp [bytesToNat]
  | cons b L ih =>
    have hb := b.isLt
    rw [bytesToNat, List.length_cons, mul_add, pow_add]
    omega

theorem bytesToNat_byte {L : List Byte} {i : Nat} {b : Byte} (h : L[i]? = some b) :
    bytesToNat L / 2 ^ (8 * i) % 256 = b.toNat := by
  induction L generalizing i with
  | nil => simp at h
  | cons c L ih =>
    have hc := c.isLt
    cases i with
    | zero =>
      obtain rfl : c = b := by simpa using h
      rw [bytesToNat]
      omega
    | succ i =>
      have hpow : 2 ^ (8 * (i + 1)) = 256 * 2 ^ (8 * i) := by ring
      have hdiv : (c.toNat + 256 * bytesToNat L) / 256 = bytesToNat L := by omega
      rw [bytesToNat, hpow, ← Nat.div_div_eq_div_mul, hdiv]
      exact ih (by simpa using h)

theorem lanesCarry_bytesToNat {dw : Nat} {L : List Byte} (h : 8 * L.length ≤ dw) :
    LanesCarry (BitVec.ofNat dw (bytesToNat L)) L := by
  intro i b hb
  apply BitVec.eq_of_toNat_eq
  have hlt : bytesToNat L < 2 ^ dw := (bytesToNat_lt L).trans_le (Nat.pow_le_pow_right (by norm_num) h)
  rw [lane_toNat, BitVec.toNat_ofNat, Nat.mod_eq_of_lt hlt, bytesToNat_byte hb]

theorem lanesCarry_take {dw : Nat} {d : BitVec dw} {L : List Byte} (h : LanesCarry d L) (n : Nat) :
    LanesCarry d (L.take n) := by
  intro i b hb
  rw [List.getElem?_take] at hb
  split at hb
  · exact h i b hb
  · cases hb

theorem lanesCarry_presentedData (L : List Byte) : LanesCarry (presentedData L) (L.take 8) :=
  lanesCarry_bytesToNat (Nat.mul_le_mul_left 8 (List.length_take_le 8 L))

theorem three_le_presentedLen_iff (L : List Byte) : 3 ≤ (presentedLen L).toNat ↔ 3 ≤ L.length := by
  have hlt : min L.length (2 ^ 4 - 1) < 2 ^ 4 := by omega
  rw [presentedLen, BitVec.toNat_ofNat, Nat.mod_eq_of_lt hlt]
  omega

/-- Settles O36: the ports carry the first eight bytes of the list, and their length is at least 3 exactly when the list's is. -/
theorem presentedMessageIsDecoded : Obligations.PresentedMessageIsDecoded := by
  intro s L
  have hlanes : LanesCarry (presentedData L) (L.take 3) := by
    have h := lanesCarry_take (lanesCarry_presentedData L) 3
    rwa [List.take_take] at h
  refine ⟨_, step_ofInputs _, ?_⟩
  rw [State.ofInputs_outputs, evalOutputs_eq_decodeList (three_le_presentedLen_iff L) hlanes]

end Sys2Proof.Machine
end

section
/-! PROOFS. The family 40_extract.md: LENCHK, EXTRACT and LE16S (R70 to R72), and the lanes that no output reads (20_memory.md
R32). -/

namespace Sys2Proof.Machine

/-! ### What a short message and the signal lanes decide -/

section
variable {lw dw : Nat} {len : BitVec lw}

/-- `present` is the net `valid` (43_convert.md R104). -/
theorem evalOutputs_present (len : BitVec lw) (d : BitVec dw) :
    (evalOutputs len d).present = (evalNets len d).valid := by
  rw [Bool.eq_iff_iff, evalOutputs_present_iff, evalNets_valid_iff]

theorem evalOutputs_of_short (d : BitVec dw) (h : len.toNat < 3) :
    evalOutputs len d = ⟨false, Config.absentBits⟩ := by
  rw [evalOutputs_eq, if_neg fun ⟨hlen, _⟩ => absurd h (not_lt.2 hlen), encodeResult_none]

/-- The outputs read lanes 1 and 2 alone, and these only when they are inside the message. -/
theorem evalOutputs_congr {d d' : BitVec dw} (h : 3 ≤ len.toNat → SameSignalLanes d d') :
    evalOutputs len d = evalOutputs len d' := by
  by_cases hlen : 3 ≤ len.toNat
  · obtain ⟨h1, h2⟩ := h hlen
    rw [evalOutputs, evalOutputs, evalNets_congr len d rfl h1 h2]
  · rw [evalOutputs_of_short d (not_le.1 hlen), evalOutputs_of_short d' (not_le.1 hlen)]

end

/-- Two steps from messages of one length differ on the output ports only by signal bytes inside the message. -/
theorem step_outputs_congr {s s' t t' : State} (h : step s = .next t) (h' : step s' = .next t')
    (hlen : s.msgLen = s'.msgLen) (hsig : 3 ≤ s.msgLen.toNat → SameSignalLanes s.msgData s'.msgData) :
    t.outputs = t'.outputs := by
  obtain rfl := step_next h
  obtain rfl := step_next h'
  rw [State.ofInputs_outputs, State.ofInputs_outputs, State.inputs_msgLen, State.inputs_msgLen, ← hlen]
  exact evalOutputs_congr hsig

theorem memRead_eq_none {s : State} {i : Nat} (h : s.msgLen.toNat ≤ i) : memRead s i = none := by
  rw [memRead_eq, if_neg (by omega)]

/-- Inside the message and on the lanes, reading gives the lane. -/
theorem memRead_eq_lane {s : State} {i : Nat} (hlen : i < s.msgLen.toNat) (hmax : i < 8) :
    memRead s i = some (lane s.msgData i) := by
  rw [memRead_eq, if_pos (lt_min hlen hmax)]

/-- Settles O9: a message of 3 bytes has lanes 1 and 2 inside it, and a shorter one shows absence. -/
theorem outputsIgnoreLanesOutsideTheSignal : Obligations.OutputsIgnoreLanesOutsideTheSignal := by
  refine ⟨fun _ _ => memRead_eq_none, fun s s' t t' h h' hlen hlanes => ?_, fun s t h hshort => ?_, fun s hlong => ?_,
    fun s s' t t' h h' hlen hsig => step_outputs_congr h h' hlen fun _ => hsig⟩
  · exact step_outputs_congr h h' hlen fun hlong => ⟨hlanes 1 (by omega), hlanes 2 (by omega)⟩
  · obtain rfl := step_next h
    exact evalOutputs_of_short _ hshort
  · rw [memRead_eq_lane (by omega) (by omega), memRead_eq_lane (by omega) (by omega)]
    exact ⟨rfl, rfl⟩

/-! ### The stages -/

/-- A stage that writes nets leaves the output ports as they are. -/
theorem sameOutputs_setNets (s : State) (n : Nets) : SameOutputs s (s.setNets n) := ⟨rfl, rfl⟩

/-- Every 16-bit pattern is its low byte and its high byte joined (40_extract.md R72). -/
theorem joinLittleEndian_bytes (v : Word16) : joinLittleEndian (v.extractLsb' 0 8) (v.extractLsb' 8 8) = v :=
  (BitVec.extractLsb'_append_extractLsb'_eq_extractLsb' rfl).trans BitVec.extractLsb'_eq_self

theorem exists_sint16_eq {z : Int} (hlo : -32768 ≤ z) (hhi : z ≤ 32767) : ∃ v : Word16, sint16 v = z := by
  refine ⟨BitVec.ofInt 16 z, ?_⟩
  rw [sint16_eq_toInt, BitVec.toInt_ofInt_eq_self (by omega) (by omega) (by omega)]

/-- Settles O12: the joined bytes are any 16 bits, and these any integer of the range. -/
theorem le16sReadsTwosComplement : Obligations.Le16sReadsTwosComplement := by
  refine ⟨fun s => ?_, fun z hlo hhi => ?_, by decide⟩
  · refine ⟨_, exec_le16s s, sameMessage_setNets s _, sameOutputs_setNets s _, ?_⟩
    rw [State.setRaw_nets]
    exact ⟨rfl, rfl, (joinLittleEndian_toNat ..).trans (Nat.add_comm ..), rfl, sint16_bounds _⟩
  · obtain ⟨v, hv⟩ := exists_sint16_eq hlo hhi
    exact ⟨_, _, (congrArg sint16 (joinLittleEndian_bytes v)).trans hv⟩

theorem lenOkNet_iff {lw : Nat} (len : BitVec lw) : lenOkNet len = true ↔ 3 ≤ len.toNat := decide_eq_true_iff

/-- The gates of `len_ok` (40_extract.md R70). -/
theorem lenOkNet_eq_gates (len : BitVec Config.lenW) :
    lenOkNet len = (len.getLsbD 3 || len.getLsbD 2 || (len.getLsbD 1 && len.getLsbD 0)) := by
  revert len
  decide

/-- Settles O10: `len_ok` gates `valid`, and `present` is `valid`. -/
theorem lenchkTestsTheLength : Obligations.LenchkTestsTheLength := by
  refine ⟨fun s => ⟨_, exec_lenchk s, sameMessage_setNets s _, sameOutputs_setNets s _, ?_⟩, fun s t h hok => ?_⟩
  · rw [State.setLenOk_nets]
    exact ⟨rfl, lenOkNet_iff s.msgLen, lenOkNet_eq_gates s.msgLen⟩
  · obtain rfl := step_next h
    rw [State.ofInputs_nets, evalNets_lenOk] at hok
    have hvalid : (evalNets s.inputs.msgLen s.inputs.msgData).valid = false := by
      rw [evalNets_valid, hok, validNet, Bool.false_and, Bool.false_and]
    rw [State.ofInputs_nets, State.ofInputs_present, evalOutputs_present]
    exact ⟨hvalid, hvalid⟩

/-- Settles O11: the bytes EXTRACT takes are the lanes that a message of 3 bytes has at index 1 and 2. -/
theorem extractTakesTheSignalBytes : Obligations.ExtractTakesTheSignalBytes := by
  intro s
  refine ⟨_, exec_extract s, sameMessage_setNets s _, sameOutputs_setNets s _, ?_⟩
  rw [State.setBytes_nets]
  exact ⟨rfl, fun hlong => ⟨memRead_eq_lane (by omega) (by omega), memRead_eq_lane (by omega) (by omega)⟩⟩

end Sys2Proof.Machine
end

section
/-! PROOFS. The family 41_scale.md: FX2F divides by 256 exactly (R80), its fields (R81), and the range of `kph` (R82). -/

namespace Sys2Proof.Machine

/-! ### The signed value as sign and magnitude -/

theorem sint16_inj {v w : Word16} (h : sint16 v = sint16 w) : v = w := by
  rwa [sint16_eq_toInt, sint16_eq_toInt, BitVec.toInt_inj] at h

/-- The sign split of 41_scale.md R81: bit 15 is the sign of `raw`. -/
theorem sign_mul_rawMagnitude (raw : Word16) :
    (if raw.getLsbD 15 then -1 else 1) * (rawMagnitude raw : ℚ) = sint16 raw := by
  have hcast : (rawMagnitude raw : ℚ) = |(sint16 raw : ℚ)| := (Nat.cast_natAbs _).trans Int.cast_abs
  rw [hcast]
  cases hs : raw.getLsbD 15 with
  | true =>
    have hneg : (sint16 raw : ℚ) < 0 := by exact_mod_cast (sint16_neg_iff raw).2 hs
    rw [if_pos rfl, abs_of_neg hneg, neg_one_mul, neg_neg]
  | false =>
    have hpos : (0 : ℚ) ≤ sint16 raw := by exact_mod_cast nonneg_of_getLsbD_15 hs
    rw [if_neg Bool.false_ne_true, abs_of_nonneg hpos, one_mul]

/-! ### The value and the fields of `kph` -/

theorem kphNet_zero : kphNet 0#16 = 0x0000000000000000#64 := rfl

/-- The division by 256 is exact: shift and exponent offset cancel but for `2^−8` (41_scale.md R80). -/
theorem f64Val_kphNet (raw : Word16) : f64Val (kphNet raw) = (sint16 raw : ℚ) * 2 ^ (-8 : Int) := by
  by_cases h : raw = 0#16
  · subst h
    have hz : sint16 0#16 = 0 := by decide
    rw [kphNet_zero, f64Val_zero, hz, Int.cast_zero, zero_mul]
  · have hp := leadingOne_le h
    have hexp : ((52 - leadingOne raw : Nat) : Int) + ((leadingOne raw : Int) - 60) = -8 := by omega
    rw [f64Val, f64Sign_kphNet h, f64Significand_kphNet h, f64Unit_kphNet h, Nat.cast_mul, Nat.cast_pow,
      Nat.cast_ofNat, ← mul_assoc, sign_mul_rawMagnitude, mul_assoc, ← zpow_natCast, ← zpow_add₀ two_ne_zero, hexp]

theorem f64Val_kphNet_eq_div (raw : Word16) : f64Val (kphNet raw) = (sint16 raw : ℚ) / 256 := by
  have hpow : (2 : ℚ) ^ (-8 : Int) = 256⁻¹ := by norm_num
  rw [f64Val_kphNet, hpow, div_eq_mul_inv]

theorem kphNet_inj {raw raw' : Word16} (h : kphNet raw = kphNet raw') : raw = raw' := by
  have hval := congrArg f64Val h
  rw [f64Val_kphNet, f64Val_kphNet] at hval
  exact sint16_inj (Int.cast_injective (mul_right_cancel₀ (zpow_ne_zero _ two_ne_zero) hval))

theorem f64Val_kphNet_lt {raw raw' : Word16} (h : sint16 raw < sint16 raw') :
    f64Val (kphNet raw) < f64Val (kphNet raw') := by
  rw [f64Val_kphNet, f64Val_kphNet]
  exact mul_lt_mul_of_pos_right (Int.cast_lt.2 h) (zpow_pos two_pos _)

theorem f64Val_kphNet_bounds (raw : Word16) :
    -128 ≤ f64Val (kphNet raw) ∧ f64Val (kphNet raw) ≤ 127.99609375 := by
  obtain ⟨hmin, hmax⟩ := sint16_bounds raw
  have hlo : (-32768 : ℚ) ≤ sint16 raw := by exact_mod_cast hmin
  have hhi : (sint16 raw : ℚ) ≤ 32767 := by exact_mod_cast hmax
  rw [f64Val_kphNet_eq_div]
  constructor <;> linarith

theorem f64Exp_kphNet_bounds {raw : Word16} (h : raw ≠ 0#16) :
    1015 ≤ f64Exp (kphNet raw) ∧ f64Exp (kphNet raw) ≤ 1030 := by
  have hp := leadingOne_le h
  rw [f64Exp_kphNet h]
  omega

theorem f64IsFinite_kphNet (raw : Word16) : f64IsFinite (kphNet raw) = true := by
  by_cases h : raw = 0#16
  · subst h; decide
  · obtain ⟨_, hmax⟩ := f64Exp_kphNet_bounds h
    rw [f64IsFinite, bne_iff_ne]
    omega

/-- The leading one of `|raw|` is at most on bit 15, so the shift fills at least 37 zeros (41_scale.md R82). -/
theorem f64Frac_kphNet_mod (raw : Word16) : f64Frac (kphNet raw) % 2 ^ 37 = 0 := by
  by_cases h : raw = 0#16
  · subst h; decide
  · have hp := leadingOne_le h
    rw [f64Frac_kphNet h]
    exact Nat.mod_eq_zero_of_dvd ((pow_dvd_pow 2 (by omega)).mul_left _)

theorem leadingOne_eq {raw : Word16} {p : Nat} (hlow : 2 ^ p ≤ rawMagnitude raw)
    (hup : rawMagnitude raw < 2 ^ (p + 1)) : leadingOne raw = p := by
  rw [leadingOne, bitLength_eq hlow hup, Nat.add_sub_cancel]

/-! ### The statements -/

/-- Settles O13: FX2F writes `kph` alone, which is finite and has the value `raw ÷ 256`. -/
theorem fx2fDividesExactly : Obligations.Fx2fDividesExactly := by
  have hdiv : f64Val Config.scaleDiv = 256 := by
    rw [f64Val_scaleDiv]; norm_num
  refine ⟨hdiv, fun s => ⟨_, exec_fx2f s, sameMessage_setNets s _, sameOutputs_setNets s _, ?_⟩⟩
  rw [State.setKph_nets]
  refine ⟨rfl, f64IsFinite_kphNet _, ?_, fun h => h ▸ kphNet_zero⟩
  rw [f64Val_kphNet_eq_div, hdiv]

/-- Settles O14: the bounds on `p` fix it as the position of the leading one, from which the fields of `kph` are made. -/
theorem fx2fAtBitLevel : Obligations.Fx2fAtBitLevel := by
  intro s t h
  obtain rfl := Host.Outcome.next.inj ((exec_fx2f s).symm.trans h)
  rw [State.setKph_nets]
  refine ⟨fun h0 => h0 ▸ kphNet_zero, fun p h0 hlow hup => ?_⟩
  obtain rfl := leadingOne_eq hlow hup
  obtain ⟨hmin, hmax⟩ := f64Exp_kphNet_bounds h0
  refine ⟨leadingOne_le h0, rawMagnitude_le _, ?_, (f64Exp_kphNet h0).trans (by omega), hmin, hmax, f64Frac_kphNet h0⟩
  rw [f64Sign_kphNet h0, sint16_neg_iff]

/-- Settles O22: `kph` is the integer `raw` times `2^−8`, so order, bounds and distinctness are those of `raw`. -/
theorem rangeOfKph : Obligations.RangeOfKph := by
  have hmin : sint16 0x8000#16 = -32768 := by decide
  have hmax : sint16 0x7FFF#16 = 32767 := by decide
  refine ⟨fun _ _ => kphNet_inj, fun _ _ => f64Val_kphNet_lt, fun raw => ⟨sint16 raw, f64Val_kphNet raw⟩,
    ⟨by decide, ?_⟩, ⟨by decide, ?_⟩, f64Val_kphNet_bounds, fun _ => f64Class_kphNet,
    fun raw => ⟨fun h => ?_, fun h => h ▸ kphNet_zero⟩, fun _ => f64Exp_kphNet_bounds, f64Frac_kphNet_mod⟩
  · rw [f64Val_kphNet_eq_div, hmin]; norm_num
  · rw [f64Val_kphNet_eq_div, hmax]; norm_num
  · exact kphNet_inj (h.trans kphNet_zero.symm)

end Sys2Proof.Machine
end

section
/-! PROOFS. The family 42_range.md: the comparator compares exact values (00_scope.md section 5, R90), the four nets of RANGE (R90,
R93 to R95), the ceiling that no `raw` reaches (R92), and which results are present (R96). -/

namespace Sys2Proof.Machine

/-! ### The order of the patterns is the order of their values -/

/-- The size of the pattern whose 63 low bits are the number `m`, counted in the least unit `2^−1074`. -/
def unitsOfLow (m : Nat) : Nat :=
  (if m / 2 ^ 52 = 0 then m % 2 ^ 52 else 2 ^ 52 + m % 2 ^ 52) * 2 ^ (m / 2 ^ 52 - 1)

/-- One more in the 63 low bits is a greater size: by one in the significand, or by its carry into the exponent. -/
theorem unitsOfLow_lt_succ (m : Nat) : unitsOfLow m < unitsOfLow (m + 1) := by
  unfold unitsOfLow
  by_cases hcarry : (m + 1) % 2 ^ 52 = 0
  · have hexp : (m + 1) / 2 ^ 52 = m / 2 ^ 52 + 1 := by omega
    rw [hexp, hcarry, if_neg (Nat.succ_ne_zero _), Nat.add_zero, Nat.add_sub_cancel]
    have hfrac : m % 2 ^ 52 < 2 ^ 52 := Nat.mod_lt _ (Nat.two_pow_pos 52)
    cases he : m / 2 ^ 52 with
    | zero => simpa using hfrac
    | succ e =>
      rw [if_neg (Nat.succ_ne_zero _), Nat.add_sub_cancel, pow_succ' 2 e, ← mul_assoc]
      exact Nat.mul_lt_mul_of_pos_right (by omega) (Nat.two_pow_pos e)
  · have hexp : (m + 1) / 2 ^ 52 = m / 2 ^ 52 := by omega
    have hfrac : (m + 1) % 2 ^ 52 = m % 2 ^ 52 + 1 := by omega
    rw [hexp, hfrac]
    refine Nat.mul_lt_mul_of_pos_right ?_ (Nat.two_pow_pos _)
    split <;> omega

theorem unitsOfLow_strictMono : StrictMono unitsOfLow := strictMono_nat_of_lt_succ unitsOfLow_lt_succ

/-- The value at a place of the order of `f64Key`, in the unit `2^−1074`: the size under the sign of the place. -/
def unitsOfKey (k : Int) : Int := k.sign * unitsOfLow k.natAbs

theorem unitsOfKey_natCast (m : Nat) : unitsOfKey m = unitsOfLow m := by
  rcases Nat.eq_zero_or_pos m with rfl | hm
  · rfl
  · rw [unitsOfKey, Int.sign_natCast_of_ne_zero hm.ne', one_mul, Int.natAbs_natCast]

theorem unitsOfKey_neg (k : Int) : unitsOfKey (-k) = -unitsOfKey k := by
  rw [unitsOfKey, unitsOfKey, Int.sign_neg, Int.natAbs_neg, neg_mul]

theorem unitsOfKey_strictMono : StrictMono unitsOfKey := by
  refine strictMono_of_odd_strictMonoOn_nonneg unitsOfKey_neg fun j hj k hk hjk => ?_
  obtain ⟨m, rfl⟩ := Int.eq_ofNat_of_zero_le hj
  obtain ⟨n, rfl⟩ := Int.eq_ofNat_of_zero_le hk
  rw [unitsOfKey_natCast, unitsOfKey_natCast]
  exact_mod_cast unitsOfLow_strictMono (Int.ofNat_lt.1 hjk)

theorem toNat_low63 (b : F64) : (b.extractLsb' 0 63).toNat = f64Exp b * 2 ^ 52 + f64Frac b := by
  rw [f64Exp_eq, f64Frac_eq, BitVec.extractLsb'_toNat, Nat.shiftRight_zero]
  omega

/-- The place of a pattern in the order, by its fields (30_encoding.md R53). -/
theorem f64Key_eq (b : F64) : f64Key b =
    if f64Sign b then -((f64Exp b * 2 ^ 52 + f64Frac b : Nat) : Int) else (f64Exp b * 2 ^ 52 + f64Frac b : Nat) := by
  rw [f64Key, toNat_low63]

theorem unitsOfLow_fields (b : F64) :
    unitsOfLow (f64Exp b * 2 ^ 52 + f64Frac b) = f64Significand b * 2 ^ (f64Exp b - 1) := by
  have hfrac := f64Frac_lt b
  have hdiv : (f64Exp b * 2 ^ 52 + f64Frac b) / 2 ^ 52 = f64Exp b := by omega
  have hmod : (f64Exp b * 2 ^ 52 + f64Frac b) % 2 ^ 52 = f64Frac b := by omega
  rw [unitsOfLow, hdiv, hmod, f64Significand]

theorem f64Unit_eq (b : F64) : f64Unit b = ((f64Exp b - 1 : Nat) : Int) + -1074 := by
  rw [f64Unit]
  split <;> omega

/-- The value of a pattern is that of its place in the order. -/
theorem f64Val_eq_unitsOfKey (b : F64) : f64Val b = (unitsOfKey (f64Key b) : ℚ) * 2 ^ (-1074 : Int) := by
  have hsize : ((f64Significand b * 2 ^ (f64Exp b - 1) : Nat) : ℚ) * 2 ^ (-1074 : Int) =
      f64Significand b * 2 ^ f64Unit b := by
    rw [f64Unit_eq, zpow_add₀ two_ne_zero, zpow_natCast, Nat.cast_mul, Nat.cast_pow, Nat.cast_ofNat, mul_assoc]
  rw [f64Val, f64Key_eq, mul_assoc, ← hsize, ← unitsOfLow_fields]
  cases f64Sign b with
  | true =>
    rw [if_pos rfl, if_pos rfl, unitsOfKey_neg, unitsOfKey_natCast, Int.cast_neg, Int.cast_natCast, neg_one_mul, neg_mul]
  | false =>
    rw [if_neg Bool.false_ne_true, if_neg Bool.false_ne_true, unitsOfKey_natCast, Int.cast_natCast, one_mul]

theorem f64Key_lt_iff (a b : F64) : f64Key a < f64Key b ↔ f64Val a < f64Val b := by
  have hunit : (0 : ℚ) < 2 ^ (-1074 : Int) := zpow_pos two_pos _
  rw [f64Val_eq_unitsOfKey, f64Val_eq_unitsOfKey, mul_lt_mul_iff_left₀ hunit, Int.cast_lt,
    unitsOfKey_strictMono.lt_iff_lt]

/-! ### The comparator -/

theorem f64IsNan_of_finite {b : F64} (h : f64IsFinite b = true) : f64IsNan b = false := by
  rw [f64IsFinite, bne_iff_ne] at h
  rw [f64IsNan, beq_false_of_ne h, Bool.false_and]

theorem f64Gt_iff_key {a b : F64} (ha : f64IsNan a = false) (hb : f64IsNan b = false) :
    f64Gt a b = true ↔ f64Key b < f64Key a := by
  rw [f64Gt, ha, hb, Bool.or_false, if_neg Bool.false_ne_true, decide_eq_true_iff]

theorem f64Gt_of_isNan {a : F64} (ha : f64IsNan a = true) (b : F64) : f64Gt a b = Config.unorderedGreater a b := by
  rw [f64Gt, ha, Bool.true_or, if_pos rfl]

/-- Settles O21: the comparator compares places in an order, and a place stands for the value. -/
theorem greaterThanComparesValues : Obligations.GreaterThanComparesValues := by
  intro a b ha hb
  rw [f64Gt_iff_key (f64IsNan_of_finite ha) (f64IsNan_of_finite hb), f64Key_lt_iff]

/-! ### RANGE -/

theorem overNet_iff {kph : F64} (h : f64IsFinite kph = true) :
    overNet kph = true ↔ f64Val Config.kphMax < f64Val kph :=
  greaterThanComparesValues kph Config.kphMax h (by decide)

theorem negNet_iff (rawU : Word16) : negNet rawU = true ↔ sint16 rawU < 0 := (sint16_neg_iff rawU).symm

theorem sentinelNet_iff (rawU : Word16) : sentinelNet rawU = true ↔ rawU = 0xFFFF#16 := beq_iff_eq

theorem validNet_iff (lenOk neg isOver : Bool) :
    validNet lenOk neg isOver = true ↔ lenOk = true ∧ neg = false ∧ isOver = false := by
  rw [validNet, Bool.and_eq_true, Bool.and_eq_true, Bool.not_eq_true', Bool.not_eq_true', and_assoc]

/-- Settles O15: each of the four nets that RANGE writes is its own test. -/
theorem rangeWritesItsFourNets : Obligations.RangeWritesItsFourNets := by
  intro s
  refine ⟨_, exec_range s, sameMessage_setNets s _, sameOutputs_setNets s _, ?_⟩
  rw [State.setRange_nets]
  exact ⟨rfl, overNet_iff, negNet_iff _, sentinelNet_iff _, validNet_iff ..⟩

theorem f64Class_eq_nan_iff (b : F64) : f64Class b = .nan ↔ f64Exp b = 2047 ∧ f64Frac b ≠ 0 := by
  unfold f64Class
  split_ifs <;> simp_all

theorem f64Class_eq_infinity_iff (b : F64) : f64Class b = .infinity ↔ f64Exp b = 2047 ∧ f64Frac b = 0 := by
  unfold f64Class
  split_ifs <;> simp_all

theorem f64IsNan_iff (b : F64) : f64IsNan b = true ↔ f64Class b = .nan := by
  rw [f64Class_eq_nan_iff, f64IsNan, Bool.and_eq_true, beq_iff_eq, bne_iff_ne]

/-- The infinities stand beyond the ceiling on their side (log 12). -/
theorem overNet_of_infinity {kph : F64} (h : f64Class kph = .infinity) : overNet kph = !f64Sign kph := by
  obtain ⟨hexp, hfrac⟩ := (f64Class_eq_infinity_iff kph).1 h
  have hnan : f64IsNan kph = false := by rw [f64IsNan, hfrac, bne_self_eq_false, Bool.and_false]
  have hmax : 0 < f64Key Config.kphMax ∧ f64Key Config.kphMax < 2047 * 2 ^ 52 := by decide
  rw [Bool.eq_iff_iff, overNet, f64Gt_iff_key hnan (by decide), f64Key_eq kph, hexp, hfrac]
  cases f64Sign kph with
  | true => simp only [if_true, Bool.not_true, Bool.false_eq_true, iff_false]; omega
  | false => simp only [Bool.false_eq_true, if_false, Bool.not_false, iff_true]; omega

/-- Settles O43: with a NaN the comparator gives the free value, and an infinity lies on one side of the ceiling. -/
theorem rangeOnAPatternWithoutValue : Obligations.RangeOnAPatternWithoutValue := by
  intro s
  refine ⟨_, exec_range s, ?_⟩
  rw [State.setRange_nets]
  exact ⟨fun h => f64Gt_of_isNan ((f64IsNan_iff _).2 h) _, overNet_of_infinity, rfl⟩

/-! ### The ceiling -/

/-- Both sides of the comparison in the unit of the ceiling, `2^−45` (42_range.md R92). -/
theorem overNet_kphNet_iff (raw : Word16) :
    overNet (kphNet raw) = true ↔ 8831136656808477 < sint16 raw * 2 ^ 37 := by
  have hunit : (0 : ℚ) < 2 ^ (-45 : Int) := zpow_pos two_pos _
  have hkph : f64Val (kphNet raw) = ((sint16 raw * 2 ^ 37 : Int) : ℚ) * 2 ^ (-45 : Int) := by
    rw [f64Val_kphNet]
    push_cast
    rw [mul_assoc]
    norm_num
  have hmax : f64Val Config.kphMax = ((8831136656808477 : Int) : ℚ) * 2 ^ (-45 : Int) := by
    rw [f64Val_kphMax]
    norm_cast
  rw [overNet_iff (f64IsFinite_kphNet raw), hkph, hmax, mul_lt_mul_iff_left₀ hunit, Int.cast_lt]

/-- 250.996 × 256 is 64254.976, which is no integer. -/
theorem div_256_ne_ceiling (z : Int) : (z : ℚ) / 256 ≠ 250.996 := by
  intro h
  have hprod : (z : ℚ) * 1000 = 64254976 := by linarith
  have hint : z * 1000 = 64254976 := by exact_mod_cast hprod
  omega

/-- Settles O23: the comparison in integers asks for a `raw` of 64255 or more, and a signed 16-bit value is below it. -/
theorem theCeilingIsNeverExceeded : Obligations.TheCeilingIsNeverExceeded := by
  refine ⟨fun raw => ⟨overNet_kphNet_iff raw, by omega⟩, fun s t h => ?_, div_256_ne_ceiling⟩
  obtain rfl := step_next h
  rw [State.ofInputs_nets, evalNets_isOver]
  exact overNet_kphNet _

/-! ### Which results are present -/

/-- The sign bit of the signal is the most significant bit of lane 2 (40_extract.md R72). -/
theorem getLsbD_15_joinLittleEndian_lanes {dw : Nat} (d : BitVec dw) :
    (joinLittleEndian (lane d 1) (lane d 2)).getLsbD 15 = d.getLsbD 23 := by
  rw [joinLittleEndian, BitVec.getLsbD_append, if_neg (by decide), lane_getLsbD]
  simp

theorem nonneg_iff_getLsbD_15 (raw : Word16) : 0 ≤ sint16 raw ↔ raw.getLsbD 15 = false :=
  ⟨getLsbD_15_of_nonneg, nonneg_of_getLsbD_15⟩

theorem f64Val_kphNet_nonneg_iff (raw : Word16) : 0 ≤ f64Val (kphNet raw) ↔ 0 ≤ sint16 raw := by
  rw [f64Val_kphNet, mul_nonneg_iff_of_pos_right (zpow_pos two_pos _), Int.cast_nonneg_iff]

/-- Settles O27: of the tests only the length and the sign of `raw` decide; the upper ends hold of every `raw`. -/
theorem presentExactlyForNonNegativeRaw : Obligations.PresentExactlyForNonNegativeRaw := by
  intro s t h
  obtain rfl := step_next h
  have hpres := evalOutputs_present_iff s.msgLen s.msgData
  rw [evalNets_raw] at hpres
  obtain ⟨_, hraw⟩ := sint16_bounds (joinLittleEndian (lane s.msgData 1) (lane s.msgData 2))
  obtain ⟨_, hkph⟩ := f64Val_kphNet_bounds (joinLittleEndian (lane s.msgData 1) (lane s.msgData 2))
  simp only [State.ofInputs_present, State.ofInputs_nets, State.inputs_msgLen, State.inputs_msgData, evalNets_raw,
    evalNets_kph]
  refine ⟨?_, ?_, ?_⟩
  · rw [hpres, nonneg_iff_getLsbD_15, getLsbD_15_joinLittleEndian_lanes]
  · rw [hpres, and_iff_left hraw]
  · rw [hpres, and_iff_left hkph, f64Val_kphNet_nonneg_iff]

end Sys2Proof.Machine
end

section
/-! PROOFS. The family 43_convert.md, the stages: KPH2MPH rounds the exact product of any finite `kph` once (R100), what it does on
the other patterns (logs 10 and 11), and OUT (R104). -/

namespace Sys2Proof.Machine

/-! ### The product of two finite patterns -/

theorem f64IsFinite_iff (b : F64) : f64IsFinite b = true ↔ f64Exp b ≤ 2046 := by
  have hexp : f64Exp b < 2048 := by
    rw [f64Exp_eq]
    exact Nat.mod_lt _ (by norm_num)
  rw [f64IsFinite, bne_iff_ne]
  omega

theorem f64Class_eq_zero_iff (b : F64) : f64Class b = .zero ↔ f64Significand b = 0 := by
  unfold f64Class f64Significand
  split_ifs <;> simp_all

theorem f64Val_eq_zero_iff (b : F64) : f64Val b = 0 ↔ f64Significand b = 0 := by
  have hsign : (if f64Sign b then (-1 : ℚ) else 1) ≠ 0 := by split <;> norm_num
  have hunit : (2 : ℚ) ^ f64Unit b ≠ 0 := zpow_ne_zero _ two_ne_zero
  rw [f64Val, mul_eq_zero_iff_right hunit, mul_eq_zero_iff_left hsign, Nat.cast_eq_zero]

/-- The size of a finite pattern is at most that of the largest one. -/
theorem f64Magnitude_le {b : F64} (h : f64IsFinite b = true) :
    (f64Significand b : ℚ) * 2 ^ f64Unit b ≤ (2 ^ 53 - 1) * 2 ^ (971 : Int) := by
  have hexp := (f64IsFinite_iff b).1 h
  have hunit : f64Unit b ≤ 971 := by
    rw [f64Unit_eq]
    omega
  have hsig : (f64Significand b : ℚ) ≤ 2 ^ 53 - 1 := by
    have hlt : (f64Significand b : ℚ) + 1 ≤ 2 ^ 53 := by exact_mod_cast f64Significand_lt b
    linarith
  exact mul_le_mul hsig (zpow_le_zpow_right₀ one_le_two hunit) (zpow_pos two_pos _).le (by norm_num)

/-- The exact product is the product of the signs, of the significands and of the units. -/
theorem f64Val_mul (a b : F64) : f64Val a * f64Val b =
    (if f64Sign a != f64Sign b then -1 else 1) *
      ((f64Significand a * f64Significand b : Nat) * 2 ^ (f64Unit a + f64Unit b)) := by
  have hsign : (if f64Sign a != f64Sign b then (-1 : ℚ) else 1) =
      (if f64Sign a then -1 else 1) * (if f64Sign b then -1 else 1) := by
    cases f64Sign a <;> cases f64Sign b <;> norm_num
  rw [hsign, zpow_add₀ two_ne_zero, Nat.cast_mul, f64Val, f64Val]
  ring

/-- A product with a factor of size at most 1 stays within the finite patterns, where the one rounding is correct (log 24). -/
theorem f64MulFinite_nearest {a b : F64} (ha : f64IsFinite a = true) (ha0 : f64Significand a ≠ 0)
    (hb0 : f64Significand b ≠ 0) (hb : (f64Significand b : ℚ) * 2 ^ f64Unit b ≤ 1) :
    IsNearestEven (f64Val a * f64Val b) (f64MulFinite a b) ∧
      f64Sign (f64MulFinite a b) = (f64Sign a != f64Sign b) := by
  rw [f64Val_mul]
  refine rne64_nearest _ (mul_ne_zero ha0 hb0) ?_
  calc ((f64Significand a * f64Significand b : Nat) : ℚ) * 2 ^ (f64Unit a + f64Unit b)
      = (f64Significand a * 2 ^ f64Unit a) * (f64Significand b * 2 ^ f64Unit b) := by
        rw [zpow_add₀ two_ne_zero, Nat.cast_mul]
        ring
    _ ≤ (f64Significand a * 2 ^ f64Unit a) * 1 := mul_le_mul_of_nonneg_left hb (by positivity)
    _ ≤ (2 ^ 53 - 1) * 2 ^ (971 : Int) := by
        rw [mul_one]
        exact f64Magnitude_le ha

theorem f64Sign_mphPerKph : f64Sign Config.mphPerKph = false := by decide

theorem f64Significand_mphPerKph : f64Significand Config.mphPerKph = mphSignificand := by decide

theorem f64Unit_mphPerKph : f64Unit Config.mphPerKph = -53 := by decide

theorem mphPerKph_magnitude_le_one :
    (f64Significand Config.mphPerKph : ℚ) * 2 ^ f64Unit Config.mphPerKph ≤ 1 := by
  rw [f64Significand_mphPerKph, f64Unit_mphPerKph, mphSignificand]
  norm_num

/-! ### The net `mph_full`, by the class of `kph` -/

theorem mphFullNet_of_zero {kph : F64} (h : f64Class kph = .zero) :
    mphFullNet kph = f64Pack (f64Sign kph && Config.negZeroProductSign) 0 0 := by
  rw [mphFullNet, h]

/-- +0 gives +0: only a zero with a sign asks for the free value of log 11. -/
theorem mphFullNet_zero : mphFullNet 0x0000000000000000#64 = 0x0000000000000000#64 := by
  have hsign : f64Sign 0x0000000000000000#64 = false := by decide
  rw [mphFullNet_of_zero (by decide), hsign]
  rfl

theorem mphFullNet_of_finite {kph : F64} (hfin : f64IsFinite kph = true) (h0 : f64Significand kph ≠ 0) :
    mphFullNet kph = f64MulFinite kph Config.mphPerKph := by
  have hexp := (f64IsFinite_iff kph).1 hfin
  rw [mphFullNet]
  cases hc : f64Class kph with
  | zero => exact absurd ((f64Class_eq_zero_iff kph).1 hc) h0
  | subnormal | normal => rfl
  | infinity =>
    obtain ⟨hmax, _⟩ := (f64Class_eq_infinity_iff kph).1 hc
    omega
  | nan =>
    obtain ⟨hmax, _⟩ := (f64Class_eq_nan_iff kph).1 hc
    omega

theorem mphFullNet_of_not_finite {kph : F64} (h : f64IsFinite kph = false) :
    mphFullNet kph = Config.nonFiniteProduct kph := by
  have hexp : f64Exp kph = 2047 := by simpa [f64IsFinite] using h
  have hne : f64Exp kph ≠ 0 := by omega
  rw [mphFullNet, f64Class, if_neg hne, if_pos hexp]
  by_cases hfrac : f64Frac kph = 0
  · rw [if_pos hfrac]
  · rw [if_neg hfrac]

/-- A pattern of value 0 with an even fraction is the exact 0, rounded. -/
theorem isNearestEven_zero {b : F64} (hfin : f64IsFinite b = true) (hval : f64Val b = 0) (hfrac : f64Frac b % 2 = 0) :
    IsNearestEven 0 b := by
  refine ⟨hfin, fun c _ => ⟨?_, fun _ _ => hfrac⟩⟩
  rw [hval, sub_zero, abs_zero]
  exact abs_nonneg _

theorem isNearestEven_pack_zero (s : Bool) : IsNearestEven 0 (f64Pack s 0 0) := by
  cases s <;> exact isNearestEven_zero (by decide) ((f64Val_eq_zero_iff _).2 (by decide)) (by decide)

/-- All that KPH2MPH can do to a finite `kph` (43_convert.md R100). -/
theorem mphFullNet_nearest {kph : F64} (h : f64IsFinite kph = true) :
    IsNearestEven (f64Val kph * f64Val Config.mphPerKph) (mphFullNet kph) ∧
      (f64Val kph ≠ 0 → f64Sign (mphFullNet kph) = f64Sign kph) := by
  by_cases h0 : f64Significand kph = 0
  · have hval := (f64Val_eq_zero_iff kph).2 h0
    rw [mphFullNet_of_zero ((f64Class_eq_zero_iff kph).2 h0), hval, zero_mul]
    exact ⟨isNearestEven_pack_zero _, fun hne => absurd rfl hne⟩
  · obtain ⟨hnear, hsign⟩ := f64MulFinite_nearest h h0 (by decide) mphPerKph_magnitude_le_one
    rw [f64Sign_mphPerKph, Bool.bne_false] at hsign
    rw [mphFullNet_of_finite h h0]
    exact ⟨hnear, fun _ => hsign⟩

/-! ### The statements on the stages -/

/-- Settles O16: KPH2MPH writes the net `mph_full` alone, which is the exact product rounded once. -/
theorem kph2mphRoundsTheProductOnce : Obligations.Kph2mphRoundsTheProductOnce := by
  intro s
  refine ⟨_, exec_kph2mph s, sameMessage_setNets s _, sameOutputs_setNets s _, ?_⟩
  rw [State.setMphFull_nets]
  exact ⟨rfl, mphFullNet_nearest, fun h0 => h0 ▸ mphFullNet_zero⟩

/-- Settles O44: an infinity and a NaN have no finite exponent field, and −0 has the class of a zero. -/
theorem kph2mphOnAPatternWithoutProduct : Obligations.Kph2mphOnAPatternWithoutProduct := by
  intro s
  refine ⟨_, exec_kph2mph s, ?_⟩
  rw [State.setMphFull_nets]
  refine ⟨mphFullNet_of_not_finite, fun hneg => ?_⟩
  have hsign : f64Sign 0x8000000000000000#64 = true := by decide
  have hpack : mphFullNet s.nets.kph = f64Pack Config.negZeroProductSign 0 0 := by
    rw [hneg, mphFullNet_of_zero (by decide), hsign, Bool.true_and]
  have hzero : f64Significand (f64Pack Config.negZeroProductSign 0 0) = 0 := by
    cases Config.negZeroProductSign <;> decide
  rw [hpack]
  exact ⟨(f64Class_eq_zero_iff _).2 hzero, f64Sign_pack _ (by norm_num) (by norm_num)⟩

/-- Settles O17: OUT is the selection, which leaves the nets as they are. -/
theorem outPresentsTheResult : Obligations.OutPresentsTheResult := by
  intro s
  refine ⟨_, exec_out s, sameMessage_select s _ _, State.select_nets .., State.select_present .., fun h => ?_, fun h => ?_⟩
  · rw [State.select_mph, if_pos h]
  · rw [State.select_mph, h]
    rfl

end Sys2Proof.Machine
end

section
/-! PROOFS. The family 43_convert.md, the integer procedure: the bounds on the product and on its rounding, the fields of `mph_full`
(R102), and its range (R105). -/

namespace Sys2Proof.Machine

/-! ### The bounds of the procedure -/

theorem bitLength_le_iff (N k : Nat) : bitLength N ≤ k ↔ N < 2 ^ k := by
  constructor
  · exact fun h => (lt_two_pow_bitLength N).trans_le (Nat.pow_le_pow_right two_pos h)
  · intro h
    by_cases hN : N = 0
    · simp [bitLength, hN]
    · have hlow := (two_pow_bitLength_le hN).trans_lt h
      have hexp := (Nat.pow_lt_pow_iff_right (by norm_num)).1 hlow
      omega

theorem lt_bitLength_iff (N k : Nat) : k < bitLength N ↔ 2 ^ k ≤ N := by
  rw [← not_le, bitLength_le_iff, not_lt]

/-- The integer `q` of 43_convert.md R102: the product of a raw magnitude, rounded to 53 bits. -/
def roundedProduct (m : Nat) : Nat := roundShift (productOf m) (shiftOf m)

/-- Why the carry never happens: the last multiple of `C` below `2^(53 + sh)` ends a whole unit `2^sh` before it, and rounding moves
it by half a unit at most (43_convert.md R102). -/
theorem product_gap {m sh : Nat} (hsh : sh ≤ 15) (h : productOf m < 2 ^ (53 + sh)) :
    productOf m + 2 ^ sh ≤ 2 ^ (53 + sh) := by
  rw [productOf, mphSignificand] at *
  interval_cases sh <;> omega

section
variable {m : Nat} (hm : m ≤ 32768)
include hm

theorem bitLength_productOf_le : bitLength (productOf m) ≤ 68 := by
  rw [bitLength_le_iff, productOf, mphSignificand]
  omega

theorem bitLength_productOf_eq_68_iff : bitLength (productOf m) = 68 ↔ 26368 ≤ m := by
  have hle := bitLength_productOf_le hm
  have hlt : 67 < bitLength (productOf m) ↔ 26368 ≤ m := by
    rw [lt_bitLength_iff, productOf, mphSignificand]
    omega
  omega

theorem shiftOf_le : shiftOf m ≤ 15 := by
  have hle := bitLength_productOf_le hm
  rw [shiftOf]
  omega

/-- Rounding moves the product by half a unit at most, and the unit is at most `2^15`. -/
theorem roundedProduct_near :
    |((roundedProduct m * 2 ^ shiftOf m : Nat) : Int) - (productOf m : Nat)| ≤ 2 ^ 14 := by
  obtain ⟨hdown, hup, _⟩ := roundShift_nearest (productOf m) (shiftOf m)
  have hunit : 2 ^ shiftOf m ≤ 2 ^ 15 := Nat.pow_le_pow_right two_pos (shiftOf_le hm)
  rw [add_mul, mul_assoc] at hdown
  rw [mul_assoc] at hup
  rw [roundedProduct, abs_le]
  omega

end

section
variable {m : Nat} (h0 : m ≠ 0)
include h0

theorem bitLength_productOf : bitLength (productOf m) = 53 + shiftOf m := by
  have hlow : 52 < bitLength (productOf m) := by
    rw [lt_bitLength_iff, productOf, mphSignificand]
    omega
  rw [shiftOf]
  omega

theorem productOf_bounds : 2 ^ 52 * 2 ^ shiftOf m ≤ productOf m ∧ productOf m < 2 ^ (53 + shiftOf m) := by
  have hL := bitLength_productOf h0
  rw [← pow_add, ← lt_bitLength_iff, ← bitLength_le_iff]
  omega

variable (hm : m ≤ 32768)
include hm

/-- Rounding gives 53 bits again, with no carry out of them (43_convert.md R102). -/
theorem roundedProduct_bounds : 2 ^ 52 ≤ roundedProduct m ∧ roundedProduct m < 2 ^ 53 := by
  obtain ⟨hlow, hup⟩ := productOf_bounds h0
  have hgap := product_gap (shiftOf_le hm) hup
  rw [pow_add] at hgap
  obtain ⟨hdown, hround, _⟩ := roundShift_nearest (productOf m) (shiftOf m)
  have hpos := Nat.two_pow_pos (shiftOf m)
  have h1 : 2 * 2 ^ 52 ≤ 2 * roundedProduct m + 1 := by
    refine Nat.le_of_mul_le_mul_right (le_trans ?_ hdown) hpos
    omega
  have h2 : 2 * roundedProduct m + 1 ≤ 2 * 2 ^ 53 := by
    refine Nat.le_of_mul_le_mul_right ?_ hpos
    rw [add_mul, one_mul, roundedProduct]
    omega
  omega

/-! ### The fields of `mph_full` -/

/-- The rounded product as a pattern: the exponent field is `E + 1023` with `E = L − 62` (43_convert.md R102). -/
theorem rne64_productOf (s : Bool) : rne64 s (productOf m) (-61) =
    f64Pack s (1014 + shiftOf m) (roundedProduct m - 2 ^ 52) := by
  have hL := bitLength_productOf h0
  have hsh := shiftOf_le hm
  obtain ⟨hlow, hup⟩ := roundedProduct_bounds h0 hm
  have hunit : max (-61 + (bitLength (productOf m) : Int) - 53) (-1074) = shiftOf m - 61 := by omega
  have hshift : ((shiftOf m : Int) - 61 - -61).toNat = shiftOf m := by omega
  have hexp : ((shiftOf m : Int) - 61 + 1074).toNat = 1013 + shiftOf m := by omega
  have hpat : (1013 + shiftOf m) * 2 ^ 52 + roundedProduct m =
      (1014 + shiftOf m) * 2 ^ 52 + (roundedProduct m - 2 ^ 52) := by omega
  rw [f64Pack_eq_low s (by omega) (by omega), ← hpat]
  simp only [rne64, roundedProduct, hunit, hexp, hshift, if_pos (by omega : (-61 : Int) ≤ shiftOf m - 61)]

end

section
variable {raw : Word16} (h : raw ≠ 0#16)
include h

theorem rawMagnitude_ne_zero : rawMagnitude raw ≠ 0 := mt (rawMagnitude_eq_zero_iff raw).1 h

theorem mphFullNet_kphNet_eq_pack : mphFullNet (kphNet raw) =
    f64Pack (raw.getLsbD 15) (1014 + shiftOf (rawMagnitude raw)) (roundedProduct (rawMagnitude raw) - 2 ^ 52) := by
  rw [mphFullNet_kphNet h, ← productOf, rne64_productOf (rawMagnitude_ne_zero h) (rawMagnitude_le raw)]

/-- The procedure packs the same fields, for its test of the carry fails (43_convert.md R102). -/
theorem mphFullProcedure_eq_pack : mphFullProcedure raw =
    f64Pack (raw.getLsbD 15) (1014 + shiftOf (rawMagnitude raw)) (roundedProduct (rawMagnitude raw) - 2 ^ 52) := by
  have hL := bitLength_productOf (rawMagnitude_ne_zero h)
  obtain ⟨_, hcarry⟩ := roundedProduct_bounds (rawMagnitude_ne_zero h) (rawMagnitude_le raw)
  have hexp : ((bitLength (productOf (rawMagnitude raw)) : Int) - 62 + 1023).toNat =
      1014 + shiftOf (rawMagnitude raw) := by omega
  rw [mphFullProcedure, if_neg h, ← hexp]
  exact if_neg hcarry.ne

theorem f64Exp_mphFullNet_kphNet : f64Exp (mphFullNet (kphNet raw)) = 1014 + shiftOf (rawMagnitude raw) := by
  have hsh := shiftOf_le (rawMagnitude_le raw)
  obtain ⟨_, hup⟩ := roundedProduct_bounds (rawMagnitude_ne_zero h) (rawMagnitude_le raw)
  rw [mphFullNet_kphNet_eq_pack h, f64Exp_pack _ (by omega) (by omega)]

theorem f64Sign_mphFullNet_kphNet : f64Sign (mphFullNet (kphNet raw)) = raw.getLsbD 15 := by
  have hsh := shiftOf_le (rawMagnitude_le raw)
  obtain ⟨_, hup⟩ := roundedProduct_bounds (rawMagnitude_ne_zero h) (rawMagnitude_le raw)
  rw [mphFullNet_kphNet_eq_pack h, f64Sign_pack _ (by omega) (by omega)]

theorem f64Class_mphFullNet_kphNet : f64Class (mphFullNet (kphNet raw)) = .normal := by
  have hsh := shiftOf_le (rawMagnitude_le raw)
  rw [f64Class, f64Exp_mphFullNet_kphNet h, if_neg (by omega), if_neg (by omega)]

/-- The value in the unit `2^−61` of the exact product (43_convert.md R102). -/
theorem f64Val_mphFullNet_kphNet_of_ne_zero : f64Val (mphFullNet (kphNet raw)) =
    (if raw.getLsbD 15 then -1 else 1) *
      (roundedProduct (rawMagnitude raw) * 2 ^ shiftOf (rawMagnitude raw) : Nat) * 2 ^ (-61 : Int) := by
  have hsh := shiftOf_le (rawMagnitude_le raw)
  obtain ⟨hlow, hup⟩ := roundedProduct_bounds (rawMagnitude_ne_zero h) (rawMagnitude_le raw)
  have hunit : ((1014 + shiftOf (rawMagnitude raw) : Nat) : Int) - 1075 = shiftOf (rawMagnitude raw) + -61 := by omega
  rw [mphFullNet_kphNet_eq_pack h, f64Val_pack _ (by omega) (by omega) (by omega), Nat.add_sub_cancel' hlow, hunit,
    zpow_add₀ two_ne_zero, zpow_natCast, Nat.cast_mul, Nat.cast_pow, Nat.cast_ofNat]
  ring

end

theorem mphFullNet_kphNet_zero : mphFullNet (kphNet 0#16) = 0x0000000000000000#64 := by
  rw [kphNet_zero, mphFullNet_zero]

/-- Settles O24: the net and the procedure pack the same fields, and these have the bounds of the shift and of `q`. -/
theorem integerProcedureGivesMphFull : Obligations.IntegerProcedureGivesMphFull := by
  intro raw
  refine ⟨?_, fun h => ?_⟩
  · by_cases h : raw = 0#16
    · rw [h, mphFullNet_kphNet_zero]
      rfl
    · rw [mphFullNet_kphNet_eq_pack h, mphFullProcedure_eq_pack h]
  · have hm := rawMagnitude_le raw
    have hL := bitLength_productOf (rawMagnitude_ne_zero h)
    have hsh := shiftOf_le hm
    have hexp := f64Exp_mphFullNet_kphNet h
    obtain ⟨hlow, hup⟩ := roundedProduct_bounds (rawMagnitude_ne_zero h) hm
    exact ⟨by omega, bitLength_productOf_le hm, bitLength_productOf_eq_68_iff hm, hsh, hlow, hup, by omega, by omega⟩

/-! ### The range of `mph_full` -/

/-- For every `raw` the value lies within half of the greatest unit of the exact product, both counted in `2^−61`. -/
theorem f64Val_mphFullNet_kphNet (raw : Word16) :
    ∃ z : Int, f64Val (mphFullNet (kphNet raw)) = z * 2 ^ (-61 : Int) ∧ |z - sint16 raw * mphSignificand| ≤ 2 ^ 14 := by
  by_cases h : raw = 0#16
  · subst h
    have hz : sint16 0#16 = 0 := by decide
    refine ⟨0, ?_, by simp [hz]⟩
    rw [mphFullNet_kphNet_zero, f64Val_zero, Int.cast_zero, zero_mul]
  · have hval := f64Val_mphFullNet_kphNet_of_ne_zero h
    have hnear := roundedProduct_near (rawMagnitude_le raw)
    generalize roundedProduct (rawMagnitude raw) * 2 ^ shiftOf (rawMagnitude raw) = w at *
    rw [productOf, Nat.cast_mul] at hnear
    cases hs : raw.getLsbD 15 with
    | true =>
      have hneg := (sint16_neg_iff raw).2 hs
      have hmag : sint16 raw = -(rawMagnitude raw : Int) := by rw [rawMagnitude]; omega
      refine ⟨-w, by rw [hval, hs]; simp, ?_⟩
      rw [hmag, neg_mul, ← neg_sub', abs_neg]
      exact hnear
    | false =>
      have hpos := nonneg_of_getLsbD_15 hs
      have hmag : sint16 raw = rawMagnitude raw := by rw [rawMagnitude]; omega
      refine ⟨w, by rw [hval, hs]; simp, ?_⟩
      rw [hmag]
      exact hnear

/-- One more in `raw` adds `C`, which is more than both roundings can take away. -/
theorem f64Val_mphFullNet_kphNet_lt {raw raw' : Word16} (h : sint16 raw < sint16 raw') :
    f64Val (mphFullNet (kphNet raw)) < f64Val (mphFullNet (kphNet raw')) := by
  obtain ⟨z, hval, hnear⟩ := f64Val_mphFullNet_kphNet raw
  obtain ⟨z', hval', hnear'⟩ := f64Val_mphFullNet_kphNet raw'
  have hlt : z < z' := by
    rw [mphSignificand, abs_le] at hnear hnear'
    omega
  rw [hval, hval']
  exact mul_lt_mul_of_pos_right (Int.cast_lt.2 hlt) (zpow_pos two_pos _)

theorem mphFullNet_kphNet_eq_zero_iff (raw : Word16) :
    mphFullNet (kphNet raw) = 0x0000000000000000#64 ↔ raw = 0#16 := by
  constructor
  · intro hz
    by_contra h
    have hclass := f64Class_mphFullNet_kphNet h
    rw [hz] at hclass
    exact absurd hclass (by decide)
  · rintro rfl
    exact mphFullNet_kphNet_zero

theorem ne_absentBits_of_finite {b : F64} (h : f64IsFinite b = true) : b ≠ Config.absentBits := by
  rintro rfl
  exact absurd h (by decide)

/-- A valid result is the speed of a raw value from 0 to 32767, and stands on `mph`. -/
theorem mphFull_of_valid {lw dw : Nat} {len : BitVec lw} {d : BitVec dw} (hv : (evalNets len d).valid = true) :
    ∃ n ≤ 32767, (evalNets len d).mphFull = roundedMph n ∧ (evalOutputs len d).mph = (evalNets len d).mphFull := by
  obtain ⟨_, hn⟩ := (evalNets_valid_iff len d).1 hv
  obtain ⟨_, hmax⟩ := sint16_bounds (evalNets len d).raw
  refine ⟨(sint16 (evalNets len d).raw).toNat, by omega, mphFullNet_kphNet_of_nonneg hn, ?_⟩
  rw [evalOutputs, resultOf, if_pos hv, encodeResult_some]

/-- The bound as the binary64 product of the two constants (43_convert.md R105). -/
theorem mphFullNet_kphMax : mphFullNet Config.kphMax = 0x40637EC6211EFA10#64 := by
  rw [mphFullNet_of_finite (by decide) (by decide)]
  decide

/-- Settles O26: the fields tell zero, class and sign, the distance of neighbours the order, and the rounded speeds the range. -/
theorem rangeOfMphFull : Obligations.RangeOfMphFull := by
  have htop : mphFullNet (kphNet 0x7FFF#16) = topSpeed := by
    rw [mphFullNet_kphNet_of_nonneg (by decide)]
    exact roundedMph_32767
  have hbound : f64Val 0x40637EC6211EFA10#64 = (5487413981805072 : Nat) * 2 ^ (-45 : Int) :=
    f64Val_of_fields (by decide) (by decide) (by decide)
  refine ⟨mphFullNet_kphNet_eq_zero_iff, fun raw h => ⟨f64Class_mphFullNet_kphNet h, ?_⟩,
    fun _ _ => f64Val_mphFullNet_kphNet_lt, fun s t h hv => ?_, htop, ?_, ?_, mphFullNet_kphMax, ?_⟩
  · rw [f64Sign_mphFullNet_kphNet h, sint16_neg_iff]
  · obtain rfl := step_next h
    rw [State.ofInputs_nets] at hv ⊢
    obtain ⟨n, hn, hspeed, hmph⟩ := mphFull_of_valid hv
    rw [State.ofInputs_mph, hmph, hspeed]
    exact ⟨roundedMph_nonneg (by omega), roundedMph_le_topSpeed hn,
      ne_absentBits_of_finite (roundedMph_finite (by omega)), rfl⟩
  · exact f64Val_topSpeed.trans (by norm_num)
  · rw [mphBound, Config.kphMaxLiteral, Config.mphPerKphLiteral]
    norm_num
  · rw [hbound]
    norm_num

end Sys2Proof.Machine
end

section
/-! PROOFS. The family 43_convert.md, exact products and ties (R103): powers of two only shift the product, `C` is 4 times an odd
number, and the products of odd numbers below 13 are small enough to leave 3 bits to round at most. -/

namespace Sys2Proof.Machine

/-! ### A factor that is a power of two -/

theorem productOf_mul_two_pow (a k : Nat) : productOf (a * 2 ^ k) = productOf a * 2 ^ k := by
  rw [productOf, productOf, mul_right_comm]

theorem productOf_ne_zero {m : Nat} (h0 : m ≠ 0) : productOf m ≠ 0 := mul_ne_zero h0 (by decide)

theorem shiftOf_mul_two_pow {a : Nat} (h0 : a ≠ 0) (k : Nat) : shiftOf (a * 2 ^ k) = shiftOf a + k := by
  have hL := bitLength_productOf h0
  rw [shiftOf, productOf_mul_two_pow, bitLength_mul_two_pow (productOf_ne_zero h0)]
  omega

theorem remainderOf_mul_two_pow {a : Nat} (h0 : a ≠ 0) (k : Nat) :
    remainderOf (a * 2 ^ k) = remainderOf a * 2 ^ k := by
  rw [remainderOf, shiftOf_mul_two_pow h0, productOf_mul_two_pow, pow_add, Nat.mul_mod_mul_right, remainderOf]

theorem exactProduct_mul_two_pow {a : Nat} (h0 : a ≠ 0) (k : Nat) : ExactProduct (a * 2 ^ k) ↔ ExactProduct a := by
  rw [ExactProduct, remainderOf_mul_two_pow h0, mul_eq_zero_iff_right (Nat.two_pow_pos k).ne']

theorem tieProduct_mul_two_pow {a : Nat} (h0 : a ≠ 0) (k : Nat) : TieProduct (a * 2 ^ k) ↔ TieProduct a := by
  have hk := Nat.two_pow_pos k
  rw [TieProduct, TieProduct, remainderOf_mul_two_pow h0, shiftOf_mul_two_pow h0]
  cases hsh : shiftOf a with
  | zero =>
    have hrem : remainderOf a = 0 := by rw [remainderOf, hsh, pow_zero, Nat.mod_one]
    simp [hrem, (Nat.two_pow_pos (k - 1)).ne]
  | succ j =>
    have hexp : j + 1 + k - 1 = j + k := by omega
    have hpos : 0 < j + 1 + k := by omega
    simp only [hexp, hpos, Nat.succ_pos, true_and, Nat.add_sub_cancel, pow_add _ j k, Nat.mul_left_inj hk.ne']

/-! ### An odd factor -/

section
variable {a : Nat} (hodd : a % 2 = 1)
include hodd

/-- `C` is 4 times an odd number (43_convert.md R103), so the product with an odd number ends in exactly two zero bits. -/
theorem productOf_mod_eight : productOf a % 8 = 4 := by
  rw [productOf, mphSignificand]
  omega

theorem exactProduct_iff_shiftOf : ExactProduct a ↔ shiftOf a ≤ 2 := by
  have hmod := productOf_mod_eight hodd
  rw [ExactProduct, remainderOf, ← Nat.dvd_iff_mod_eq_zero]
  constructor
  · intro hdvd
    by_contra hsh
    have h8 : 2 ^ 3 ∣ productOf a := (pow_dvd_pow 2 (by omega)).trans hdvd
    omega
  · intro hsh
    have h4 : 2 ^ 2 ∣ productOf a := by omega
    exact (pow_dvd_pow 2 hsh).trans h4

/-- Half of the unit divides the remainder of a tie and the whole unit does not, so the unit is `2^3`. -/
theorem tieProduct_iff_shiftOf : TieProduct a ↔ shiftOf a = 3 := by
  have hmod := productOf_mod_eight hodd
  constructor
  · rintro ⟨hpos, hhalf⟩
    have hexact := exactProduct_iff_shiftOf hodd
    have hbig : ¬ shiftOf a ≤ 2 := by
      rw [← hexact, ExactProduct, hhalf]
      exact (Nat.two_pow_pos _).ne'
    by_contra hne
    have h8 : 2 ^ 3 ∣ remainderOf a := hhalf ▸ pow_dvd_pow 2 (by omega)
    have hprod : 2 ^ 3 ∣ productOf a := (Nat.dvd_mod_iff (pow_dvd_pow 2 (by omega))).1 h8
    omega
  · intro hsh
    rw [TieProduct, remainderOf, hsh]
    exact ⟨by omega, hmod⟩

theorem exactProduct_iff_of_odd : ExactProduct a ↔ a = 1 ∨ a = 3 ∨ a = 5 := by
  have hlen : bitLength (productOf a) ≤ 55 ↔ a ≤ 6 := by
    rw [bitLength_le_iff, productOf, mphSignificand]
    omega
  rw [exactProduct_iff_shiftOf hodd, shiftOf]
  omega

theorem tieProduct_iff_of_odd : TieProduct a ↔ a = 7 ∨ a = 9 ∨ a = 11 := by
  have hlow : bitLength (productOf a) ≤ 55 ↔ a ≤ 6 := by
    rw [bitLength_le_iff, productOf, mphSignificand]
    omega
  have hup : bitLength (productOf a) ≤ 56 ↔ a ≤ 12 := by
    rw [bitLength_le_iff, productOf, mphSignificand]
    omega
  rw [tieProduct_iff_shiftOf hodd, shiftOf]
  omega

end

/-! ### The lists and their lengths -/

/-- The raw values from 1 to 32767 that are one of the odd numbers `as` times a power of two. -/
def rawsOf (as : List Nat) : List Nat :=
  (as.flatMap fun a => (List.range 15).map fun k => a * 2 ^ k).filter fun n => n ≤ 32767

/-- A property that reads the odd part of a number alone holds of a raw value exactly when it is in the list. -/
theorem mem_rawsOf_iff {P : Nat → Prop} {as : List Nat} (hodd : ∀ a ∈ as, a % 2 = 1)
    (hP : ∀ a k, a % 2 = 1 → (P (a * 2 ^ k) ↔ a ∈ as)) (n : Nat) :
    n ∈ rawsOf as ↔ n ∈ List.range 32768 ∧ 0 < n ∧ P n := by
  simp only [rawsOf, List.mem_filter, List.mem_flatMap, List.mem_map, List.mem_range, decide_eq_true_eq]
  constructor
  · rintro ⟨⟨a, ha, k, _, rfl⟩, hn⟩
    have hmod := hodd a ha
    exact ⟨by omega, Nat.mul_pos (by omega) (Nat.two_pow_pos k), (hP a k hmod).2 ha⟩
  · rintro ⟨hn, hpos, hPn⟩
    obtain ⟨k, a, ha, rfl⟩ := Nat.exists_eq_two_pow_mul_odd hpos.ne'
    rw [mul_comm] at hn hpos hPn ⊢
    have hk : 2 ^ k < 2 ^ 15 := (Nat.le_mul_of_pos_left _ ha.pos).trans_lt (by omega)
    have hmem := (hP a k (Nat.odd_iff.1 ha)).1 hPn
    exact ⟨⟨a, hmem, k, (Nat.pow_lt_pow_iff_right (by norm_num)).1 hk, rfl⟩, by omega⟩

theorem mem_rawsOf_iff_exact (n : Nat) :
    n ∈ rawsOf [1, 3, 5] ↔ n ∈ List.range 32768 ∧ 0 < n ∧ ExactProduct n := by
  refine mem_rawsOf_iff (by decide) (fun a k ha => ?_) n
  rw [exactProduct_mul_two_pow (by omega), exactProduct_iff_of_odd ha]
  simp

theorem pos_of_tieProduct {n : Nat} (h : TieProduct n) : 0 < n := by
  refine Nat.pos_of_ne_zero ?_
  rintro rfl
  exact absurd h (by decide)

theorem mem_rawsOf_iff_tie (n : Nat) : n ∈ rawsOf [7, 9, 11] ↔ n ∈ List.range 32768 ∧ TieProduct n := by
  rw [mem_rawsOf_iff (P := TieProduct) (by decide) (fun a k ha => ?_), and_iff_right_of_imp pos_of_tieProduct]
  rw [tieProduct_mul_two_pow (by omega), tieProduct_iff_of_odd ha]
  simp

section
variable {p : Nat → Bool} {l : List Nat} {N : Nat} (h : ∀ n, n ∈ l ↔ n ∈ List.range N ∧ p n = true)
include h

theorem filter_range_perm (hl : l.Nodup) : ((List.range N).filter p).Perm l :=
  (List.perm_ext_iff_of_nodup (List.nodup_range.filter p) hl).2 fun n => by rw [List.mem_filter, h]

theorem filter_range_eq (hl : l.Pairwise (· < ·)) : (List.range N).filter p = l :=
  (List.pairwise_lt_range.filter p).eq_of_mem_iff hl fun n => by rw [List.mem_filter, h]

end

/-- Of the 32768 numbers below 32768 the others are 0, the exact products and the ties. -/
theorem mem_zero_exact_tie_iff (n : Nat) : n ∈ 0 :: (rawsOf [1, 3, 5] ++ rawsOf [7, 9, 11]) ↔
    n ∈ List.range 32768 ∧ ¬ (0 < n ∧ ¬ ExactProduct n ∧ ¬ TieProduct n) := by
  rw [List.mem_cons, List.mem_append, mem_rawsOf_iff_exact, mem_rawsOf_iff_tie, List.mem_range]
  have htie := pos_of_tieProduct (n := n)
  by_cases h0 : n = 0
  · simp [h0]
  · have hpos := Nat.pos_of_ne_zero h0
    tauto

/-- A list is as long as its elements with a property and those without it. -/
theorem length_filter_range {p : Nat → Bool} {l : List Nat} {N : Nat} (hl : l.Nodup)
    (h : ∀ n, n ∈ l ↔ n ∈ List.range N ∧ ¬ p n = true) : ((List.range N).filter p).length = N - l.length := by
  have hrest := filter_range_perm (p := fun n => !p n) (fun n => by rw [h, Bool.not_eq_true, Bool.not_eq_true']) hl
  have hall := List.length_eq_length_filter_add (l := List.range N) p
  rw [List.length_range, hrest.length_eq] at hall
  exact Nat.eq_sub_of_add_eq hall.symm

/-! ### The statement -/

/-- Settles O25: of `a × 2^k` the odd `a` decides, by the length of its product, and the lists of 1 to 32767 follow from it. -/
theorem exactAndTieProducts : Obligations.ExactAndTieProducts := by
  refine ⟨by decide, fun a k ha _ => ⟨?_, ?_⟩, ?_, ?_, ?_, ⟨by decide, by decide, ?_⟩, ⟨by decide, by decide, ?_⟩⟩
  · rw [exactProduct_mul_two_pow (by omega), exactProduct_iff_of_odd ha]
  · rw [tieProduct_mul_two_pow (by omega), tieProduct_iff_of_odd ha]
  · rw [(filter_range_perm (fun n => by rw [mem_rawsOf_iff_exact, decide_eq_true_iff]) (by decide)).length_eq]
    decide
  · refine filter_range_eq (fun n => ?_) (by decide)
    rw [decide_eq_true_iff, ← mem_rawsOf_iff_tie]
    exact List.Perm.mem_iff (by decide)
  · rw [length_filter_range (l := 0 :: (rawsOf [1, 3, 5] ++ rawsOf [7, 9, 11])) (by decide)
      fun n => by rw [decide_eq_true_iff, mem_zero_exact_tie_iff]]
    decide
  · rw [mphFullNet_kphNet_of_nonneg (by decide)]
    decide
  · rw [mphFullNet_kphNet_of_nonneg (by decide)]
    decide

end Sys2Proof.Machine
end

section
/-! PROOFS. The family 44_decode.md: DECODE as its seven stages (R110), totality (R111), purity (R112), the value equation (R115),
and the document's function on byte lists (R114). -/

namespace Sys2Proof.Machine

/-! ### Every operation answers -/

/-- No operation has an arm that faults or refuses (44_decode.md R111). -/
theorem exists_exec_eq_next (i : Instr) (s : State) : ∃ t, exec i s = .next t := by
  cases i with
  | decode len a b c r => exact ⟨_, exec_decode len a b c r s⟩
  | lenchk => exact ⟨_, exec_lenchk s⟩
  | extract => exact ⟨_, exec_extract s⟩
  | le16s => exact ⟨_, exec_le16s s⟩
  | fx2f => exact ⟨_, exec_fx2f s⟩
  | range => exact ⟨_, exec_range s⟩
  | kph2mph => exact ⟨_, exec_kph2mph s⟩
  | out => exact ⟨_, exec_out s⟩

/-- Settles O31: a step gives the state of its inputs, and each operation has its equation. -/
theorem everyEvaluationAnswers : Obligations.EveryEvaluationAnswers := by
  refine ⟨fun s => ⟨_, step_eq s, fun _ => step_next⟩, exists_exec_eq_next, fun s r h => ?_, fun s r h => ?_⟩
  · rw [step_eq] at h
    cases h
  · rw [step_eq] at h
    cases h

/-- Settles O32: the next state is that of the inputs, which a step gives again. -/
theorem resultDependsOnPresentInputsAlone : Obligations.ResultDependsOnPresentInputsAlone := by
  refine ⟨fun s s' t t' hi h h' => ?_, fun s t h => ?_⟩
  · rw [step_next h, step_next h', hi]
  · obtain rfl := step_next h
    exact ⟨step_ofInputs s.inputs, State.ofInputs_inputs s.inputs⟩

/-! ### DECODE of its operands -/

/-- The procedure of 43_convert.md R102 gives what the stage KPH2MPH gives. -/
theorem mphFullNet_kphNet_eq_procedure (raw : Word16) : mphFullNet (kphNet raw) = mphFullProcedure raw :=
  (integerProcedureGivesMphFull raw).1

/-- The nets of DECODE as functions of its operands: `sigLo` and `sigHi` are the lanes it reads. -/
theorem evalNets_joinLanes (len : BitVec Config.lenW) (ign0 sigLo sigHi : Byte) (rest : BitVec Config.restW) :
    evalNets len (joinLanes ign0 sigLo sigHi rest) =
      { lenOk := lenOkNet len
        b1 := sigLo
        b2 := sigHi
        rawU := sigHi ++ sigLo
        raw := sigHi ++ sigLo
        kph := kphNet (sigHi ++ sigLo)
        isOver := overNet (kphNet (sigHi ++ sigLo))
        neg := negNet (sigHi ++ sigLo)
        sentinel := sentinelNet (sigHi ++ sigLo)
        valid := validNet (lenOkNet len) (negNet (sigHi ++ sigLo)) (overNet (kphNet (sigHi ++ sigLo)))
        mphFull := mphFullNet (kphNet (sigHi ++ sigLo)) } := by
  have hlo : lane (joinLanes ign0 sigLo sigHi rest) Config.sigOffset = sigLo := lane_one_joinLanes ..
  have hhi : lane (joinLanes ign0 sigLo sigHi rest) (Config.sigOffset + 1) = sigHi := lane_two_joinLanes ..
  simp only [evalNets, hlo, hhi, joinLittleEndian]

/-- Settles O18: each net is its stage's function of the operands, and the selection leaves the nets as they are. -/
theorem decodePerformsTheSevenStages : Obligations.DecodePerformsTheSevenStages := by
  intro len ign0 sigLo sigHi rest s
  refine ⟨_, exec_decode len ign0 sigLo sigHi rest s,
    sameMessage_trans (sameMessage_setNets s _) (sameMessage_select _ _ _), ?_⟩
  have hkph : f64Val (kphNet (sigHi ++ sigLo)) = ((sigHi ++ sigLo).toInt : ℚ) / 256 := by
    rw [f64Val_kphNet_eq_div, sint16_eq_toInt]
  rw [State.select_nets, State.setNets_nets, State.select_present, State.select_mph, evalNets_joinLanes]
  exact ⟨lenOkNet_iff len, rfl, rfl, rfl, sint16_eq_toInt _, f64IsFinite_kphNet _, hkph, rfl, rfl, sentinelNet_iff _,
    validNet_iff .., mphFullNet_kphNet_eq_procedure _, rfl, rfl⟩

/-! ### The value equation -/

/-- Read unsigned, the negative signals are those of 32768 or more (40_extract.md R72). -/
theorem sint16_neg_iff_toNat (v : Word16) : sint16 v < 0 ↔ 32768 ≤ v.toNat := by
  rw [sint16_eq_toInt, BitVec.toInt_neg_iff]
  omega

theorem eq_zero_of_sint16_eq_zero {v : Word16} (h : sint16 v = 0) : v = 0#16 :=
  sint16_inj (h.trans (by decide))

section
variable {lw dw : Nat} {len : BitVec lw} {d : BitVec dw}

/-- A message long enough whose signal is not negative shows the product of `kph` and the constant. -/
theorem evalOutputs_of_nonneg (hlen : 3 ≤ len.toNat) (hn : 0 ≤ sint16 (evalNets len d).raw) :
    evalOutputs len d = ⟨true, mphFullNet (evalNets len d).kph⟩ := by
  rw [evalOutputs_eq, if_pos ⟨hlen, hn⟩, encodeResult_some, ← mphFullNet_kphNet_of_nonneg hn]
  rfl

theorem evalOutputs_of_neg (hn : sint16 (evalNets len d).raw < 0) :
    evalOutputs len d = ⟨false, Config.absentBits⟩ := by
  rw [evalOutputs_eq, if_neg fun ⟨_, hpos⟩ => absurd hn (not_lt.2 hpos), encodeResult_none]

end

/-- Settles O34: `kph` is the exact quotient, `mph` its product with the constant rounded once, and a signal of 32768 or more is
negative. -/
theorem valueEquationHoldsExactly : Obligations.ValueEquationHoldsExactly := by
  intro s t h hlen
  obtain rfl := step_next h
  rw [State.ofInputs_nets, State.ofInputs_present, State.ofInputs_mph, State.ofInputs_outputs,
    State.inputs_msgLen, State.inputs_msgData]
  refine ⟨fun hn => ?_, fun hbig => evalOutputs_of_neg ((sint16_neg_iff_toNat _).2 hbig)⟩
  rw [evalOutputs_of_nonneg hlen hn]
  obtain ⟨hnear, _⟩ := mphFullNet_nearest (f64IsFinite_kphNet (evalNets s.msgLen s.msgData).raw)
  exact ⟨rfl, f64Val_kphNet_eq_div _, hnear,
    fun h0 => (mphFullNet_kphNet_eq_zero_iff _).2 (eq_zero_of_sint16_eq_zero h0)⟩

/-! ### The document's function on byte lists -/

theorem decodeList_of_getElem? {L : List Byte} {b1 b2 : Byte} (h1 : L[1]? = some b1) (h2 : L[2]? = some b2) :
    decodeList L = if 0 ≤ sint16 (joinLittleEndian b1 b2) then some (roundedMph (sint16 (joinLittleEndian b1 b2)).toNat)
      else none := by
  match L, h1, h2 with
  | b0 :: _ :: _ :: L, rfl, rfl => exact decodeList_cons b0 b1 b2 L

/-- Whether a list has 3 bytes shows in its byte 2, so bytes 1 and 2 decide. -/
theorem decodeList_congr {L L' : List Byte} (h1 : L[1]? = L'[1]?) (h2 : L[2]? = L'[2]?) :
    decodeList L = decodeList L' := by
  by_cases hshort : L.length < 3
  · have hshort' : L'[2]? = none := by rw [← h2, List.getElem?_eq_none (by omega)]
    rw [decodeList_of_short hshort,
      decodeList_of_short (Nat.lt_succ_of_le (List.getElem?_eq_none_iff.1 hshort'))]
  · have hb1 : L[1]? = some L[1] := List.getElem?_eq_getElem (by omega)
    have hb2 : L[2]? = some L[2] := List.getElem?_eq_getElem (by omega)
    rw [decodeList_of_getElem? hb1 hb2, decodeList_of_getElem? (h1 ▸ hb1) (h2 ▸ hb2)]

/-- Settles O35: `M` lanes carry the first three bytes, and the length on the port is at least 3 exactly when the list's is. -/
theorem portsShowTheListFunction : Obligations.PortsShowTheListFunction := by
  refine ⟨fun M L len data hM hlanes hfits hlong => ?_, fun L L' _ => decodeList_congr, fun L => decodeList_of_short⟩
  have hlanes3 : LanesCarry data (L.take 3) := by
    have h := lanesCarry_take hlanes 3
    rwa [List.take_take, Nat.min_eq_left hM] at h
  refine evalOutputs_eq_decodeList ?_ hlanes3
  rcases le_or_gt L.length M with hle | hgt
  · rw [hfits hle]
  · exact iff_of_true (hlong hgt) (hM.trans hgt.le)

end Sys2Proof.Machine
end

section
/-! PROOFS. The family 60_exceptions.md: the named conditions and what causes each (R121), the single named cause (R124), absent
results that cannot be told apart (R122, R125), and the evaluation after an error condition (R126). -/

namespace Sys2Proof.Machine

/-! ### What causes each condition -/

section
variable {lw dw : Nat} (len : BitVec lw) (d : BitVec dw)

theorem inputTooShort_holds_iff : ErrorKind.holds .inputTooShort (evalNets len d) = true ↔ len.toNat < 3 := by
  rw [ErrorKind.holds, Bool.not_eq_true', ← Bool.not_eq_true, evalNets_lenOk, lenOkNet_iff, not_le]

theorem unavailable_holds_iff : ErrorKind.holds .unavailable (evalNets len d) = true ↔
    3 ≤ len.toNat ∧ (evalNets len d).rawU.toNat = 0xFFFF := by
  rw [ErrorKind.holds, Bool.and_eq_true, evalNets_lenOk, lenOkNet_iff, evalNets_sentinel, sentinelNet_iff, evalNets_rawU,
    ← BitVec.toNat_inj]
  rfl

theorem negativeRaw_holds_iff : ErrorKind.holds .negativeRaw (evalNets len d) = true ↔
    3 ≤ len.toNat ∧ 0x8000 ≤ (evalNets len d).rawU.toNat := by
  rw [ErrorKind.holds, Bool.and_eq_true, evalNets_lenOk, lenOkNet_iff, evalNets_neg, negNet_iff, sint16_neg_iff_toNat,
    evalNets_rawU]

/-- The ceiling is never exceeded (42_range.md R92). -/
theorem outOfRange_holds_eq_false : ErrorKind.holds .outOfRange (evalNets len d) = false := by
  rw [ErrorKind.holds, evalNets_isOver, overNet_kphNet, Bool.and_false]

/-! ### The conditions together -/

/-- The sentinel is one of the negative signals, so that the length and the sign decide whether any condition holds. -/
theorem exists_errorKind_holds_iff : (∃ k : ErrorKind, k.holds (evalNets len d) = true) ↔
    len.toNat < 3 ∨ 0x8000 ≤ (evalNets len d).rawU.toNat := by
  constructor
  · rintro ⟨k, hk⟩
    cases k with
    | inputTooShort => exact .inl ((inputTooShort_holds_iff len d).1 hk)
    | wrongInputType => exact absurd hk Bool.false_ne_true
    | outOfRange => exact absurd hk (Bool.eq_false_iff.1 (outOfRange_holds_eq_false len d))
    | unavailable =>
      obtain ⟨_, hraw⟩ := (unavailable_holds_iff len d).1 hk
      exact .inr (by omega)
    | negativeRaw =>
      obtain ⟨_, hraw⟩ := (negativeRaw_holds_iff len d).1 hk
      exact .inr hraw
  · intro h
    by_cases hlen : len.toNat < 3
    · exact ⟨.inputTooShort, (inputTooShort_holds_iff len d).2 hlen⟩
    · exact ⟨.negativeRaw, (negativeRaw_holds_iff len d).2 ⟨not_lt.1 hlen, h.resolve_left hlen⟩⟩

theorem evalOutputs_absent_iff : (evalOutputs len d).present = false ↔
    len.toNat < 3 ∨ 0x8000 ≤ (evalNets len d).rawU.toNat := by
  have hraw : (evalNets len d).rawU = (evalNets len d).raw := rfl
  rw [← Bool.not_eq_true, evalOutputs_present_iff, not_and_or, not_le, not_le, sint16_neg_iff_toNat, hraw]

theorem find?_cons_eq_ite {α : Type} (p : α → Bool) (a : α) (l : List α) :
    (a :: l).find? p = if p a then some a else l.find? p := by
  rw [List.find?_cons]
  cases p a <;> rfl

/-- The named cause is the first condition that holds, in the document's order (60_exceptions.md R124). -/
theorem errorCause_eq_first (n : Nets) : errorCause n =
    if ErrorKind.holds .inputTooShort n then some .inputTooShort
    else if ErrorKind.holds .unavailable n then some .unavailable
    else if ErrorKind.holds .negativeRaw n then some .negativeRaw
    else if ErrorKind.holds .outOfRange n then some .outOfRange
    else none := by
  simp only [errorCause, find?_cons_eq_ite, List.find?_nil]

theorem errorCause_evalNets : errorCause (evalNets len d) =
    if len.toNat < 3 then some .inputTooShort
    else if (evalNets len d).rawU.toNat = 0xFFFF then some .unavailable
    else if 0x8000 ≤ (evalNets len d).rawU.toNat then some .negativeRaw
    else none := by
  simp only [errorCause_eq_first, inputTooShort_holds_iff, unavailable_holds_iff, negativeRaw_holds_iff,
    outOfRange_holds_eq_false, if_neg Bool.false_ne_true]
  by_cases hlen : len.toNat < 3
  · rw [if_pos hlen, if_pos hlen]
  · simp only [not_lt.1 hlen, true_and]

end

/-- One pattern stands on the output ports for every absent result (60_exceptions.md R122). -/
theorem outputs_of_absent {s : State} (hs : Settled s) (h : s.present = false) :
    s.outputs = ⟨false, Config.absentBits⟩ := by
  rw [← h, ← mph_of_absent hs h]
  rfl

/-- Settles O37: after a step the nets are those of the inputs, where each condition has its cause, and any of them makes the
result absent. -/
theorem errorConditionsEndInAbsence : Obligations.ErrorConditionsEndInAbsence := by
  refine ⟨fun s t h => ?_, fun s s' t t' h h' ha ha' => ?_⟩
  · obtain rfl := step_next h
    rw [State.ofInputs_nets, State.ofInputs_present, State.inputs_msgLen, State.inputs_msgData]
    exact ⟨(evalOutputs_absent_iff _ _).trans (exists_errorKind_holds_iff _ _).symm, inputTooShort_holds_iff _ _,
      unavailable_holds_iff _ _, negativeRaw_holds_iff _ _, outOfRange_holds_eq_false _ _, rfl, errorCause_evalNets _ _⟩
  · have ho := outputs_of_absent (settled_of_step h) ha
    have ho' := outputs_of_absent (settled_of_step h') ha'
    exact ⟨ho.trans ho'.symm, ho⟩

/-! ### After an error condition -/

/-- All that an evaluation can do: it ends in the state of the input presented, whatever stood there before
(44_decode.md R112). -/
theorem evaluate_eq (s : State) (p : InputPorts) : evaluate s p = .next (State.ofInputs p) := by
  rw [evaluate, State.drive_eq, step_ofInputs]

/-- Settles O38: from both states the next evaluation ends in the state of its input, so nothing of the run before it is left. -/
theorem earlierResultsLeaveNoMark : Obligations.EarlierResultsLeaveNoMark := by
  intro s t ps outs q _
  rw [evaluate_eq t, evaluate_eq s]

end Sys2Proof.Machine
end

section
/-! PROOFS. The family 70_reset_and_hazards.md: a run is the list of the individual results (R146), a step performs what stands
on the input ports (R146), and before the first message the outputs are those of the all-zero inputs (R141). -/

namespace Sys2Proof.Machine

/-! ### A run -/

/-- A run that starts with `p` continues from the state of `p`, whatever stood before. -/
theorem runEvaluations_cons {p : InputPorts} {ps : List InputPorts} {u : State} {outs : List OutputPorts}
    (h : runEvaluations (State.ofInputs p) ps = .next (u, outs)) (s : State) :
    runEvaluations s (p :: ps) = .next (u, evalOutputs p.msgLen p.msgData :: outs) := by
  simp only [runEvaluations, evaluate_eq, h, State.ofInputs_outputs]

/-- A run drives its inputs one after the other, and each of them gives its own outputs. -/
theorem runEvaluations_eq (s : State) (ps : List InputPorts) :
    runEvaluations s ps = .next (ps.foldl State.drive s, ps.map fun p => evalOutputs p.msgLen p.msgData) := by
  induction ps generalizing s with
  | nil => rfl
  | cons p ps ih => exact runEvaluations_cons (ih (State.ofInputs p)) s

/-- Of the inputs driven one after the other the last one alone determines the state. -/
theorem foldl_drive_of_getLast? {ps : List InputPorts} {p : InputPorts} (h : ps.getLast? = some p) (s : State) :
    ps.foldl State.drive s = State.ofInputs p := by
  obtain ⟨qs, rfl⟩ := List.getLast?_eq_some_iff.1 h
  rw [List.foldl_concat, State.drive_eq]

/-- Settles O39, by induction on the list of inputs: each evaluation ends in the state of its own input. -/
theorem runIsTheListOfResults : Obligations.RunIsTheListOfResults := by
  intro s ps
  refine ⟨_, runEvaluations_eq s ps, fun p hp => ?_⟩
  rw [foldl_drive_of_getLast? hp]
  exact ⟨State.ofInputs_inputs p, settled_ofInputs p⟩

/-! ### The operation a step performs -/

/-- The operation fetched is the one well-formed operation that the input ports encode. -/
theorem fetchInstr_of_encode {s : State} {i : Instr} (hi : i.wellFormed = true)
    (he : encode i = some (s.msgLen, s.msgData)) : fetchInstr s = i := by
  obtain ⟨roundTrip, _⟩ := decodeAndEncodeAgree
  obtain ⟨len, data, he', hd⟩ := roundTrip i hi
  cases he.symm.trans he'
  exact hd

theorem fetchInstr_wellFormed (s : State) : (fetchInstr s).wellFormed = true := rfl

/-- Settles O4: what is fetched is the operation that the input ports encode. -/
theorem stepRunsThePresentedOperation : Obligations.StepRunsThePresentedOperation := by
  refine ⟨fun s i hi he => ?_, fun s => ⟨fetchInstr_wellFormed s, encode_decodeInputs s.msgLen s.msgData⟩⟩
  rw [step, fetchInstr_of_encode hi he]

/-! ### Before the first message -/

theorem settled_reset : Settled State.reset := State.reset_eq ▸ settled_ofInputs _

/-- The state before the first message is the one that all-zero inputs give (70_reset_and_hazards.md R141). -/
theorem eq_reset_of_step_drive_zero {s t : State} (h : step (s.drive ⟨0#4, 0#64⟩) = .next t) : t = State.reset := by
  rw [step_next h, State.drive_eq, State.ofInputs_inputs, State.reset_eq]

/-- Settles O30: the state before the first message is settled, and a step on all-zero inputs ends in it. -/
theorem resetIsSettledAndAbsent : Obligations.ResetIsSettledAndAbsent := by
  have habsent : State.reset.outputs = ⟨false, 0x7FF8000000000000#64⟩ := outputs_of_absent settled_reset rfl
  refine ⟨settled_reset, safeOutputs_of_settled settled_reset, habsent, fun s t h => ?_⟩
  rw [eq_reset_of_step_drive_zero h, habsent]

end Sys2Proof.Machine
end

section
/-! PROOFS. The comparator on the infinities (00_scope.md section 5, log 12): every finite pattern has its place in the order strictly
between theirs. -/

namespace Sys2Proof.Machine

/-- An infinity has its place at `2047 × 2^52`, on the side of its sign. -/
theorem f64Key_of_infinity {b : F64} (h : f64Class b = .infinity) :
    f64Key b = if f64Sign b then -(2047 * 2 ^ 52) else 2047 * 2 ^ 52 := by
  obtain ⟨hexp, hfrac⟩ := (f64Class_eq_infinity_iff b).1 h
  rw [f64Key_eq, hexp, hfrac]
  rfl

theorem f64IsNan_of_infinity {b : F64} (h : f64Class b = .infinity) : f64IsNan b = false := by
  rw [Bool.eq_false_iff, ne_eq, f64IsNan_iff, h]
  decide

/-- A finite exponent field is at most 2046, so its carry into 2047 is not reached on either side. -/
theorem f64Key_finite_bounds {b : F64} (h : f64IsFinite b = true) :
    -(2047 * 2 ^ 52) < f64Key b ∧ f64Key b < 2047 * 2 ^ 52 := by
  have hexp := (f64IsFinite_iff b).1 h
  have hfrac := f64Frac_lt b
  rw [f64Key_eq]
  split <;> omega

/-- An infinity is greater than a finite pattern exactly when it is the positive one. -/
theorem f64Gt_infinity_finite {a b : F64} (ha : f64Class a = .infinity) (hb : f64IsFinite b = true) :
    f64Gt a b = !f64Sign a := by
  obtain ⟨hlow, hup⟩ := f64Key_finite_bounds hb
  rw [Bool.eq_iff_iff, f64Gt_iff_key (f64IsNan_of_infinity ha) (f64IsNan_of_finite hb), f64Key_of_infinity ha]
  cases f64Sign a with
  | true => simpa using hlow.le
  | false => simpa using hup

/-- A finite pattern is greater than an infinity exactly when that is the negative one. -/
theorem f64Gt_finite_infinity {a b : F64} (ha : f64IsFinite a = true) (hb : f64Class b = .infinity) :
    f64Gt a b = f64Sign b := by
  obtain ⟨hlow, hup⟩ := f64Key_finite_bounds ha
  rw [Bool.eq_iff_iff, f64Gt_iff_key (f64IsNan_of_finite ha) (f64IsNan_of_infinity hb), f64Key_of_infinity hb]
  cases f64Sign b with
  | true => simpa using hlow
  | false => simpa using hup.le

/-- Settles O45: the two patterns are infinities, one of each sign, and the sign alone decides on which side of `b` they lie. -/
theorem infinitiesLieBeyondTheFinitePatterns : Obligations.InfinitiesLieBeyondTheFinitePatterns := by
  intro b hb
  have hpos : f64Class 0x7FF0000000000000#64 = .infinity := by decide
  have hneg : f64Class 0xFFF0000000000000#64 = .infinity := by decide
  exact ⟨f64Gt_infinity_finite hpos hb, f64Gt_finite_infinity hb hpos,
    f64Gt_finite_infinity hb hneg, f64Gt_infinity_finite hneg hb⟩

end Sys2Proof.Machine
end
